-- ==== Sys2Proof/Word.lean ====
section
/-! DEFINITION. The bit-vector types of the Saily bit writer: the widest DATA, BIAS and RESULT bus, and the byte. -/

namespace Sys2Proof

/-- The DATA, BIAS and RESULT buses at the widest legal W = 64 (00_scope.md R6). A block with a smaller W drives and reads
the low W lines only (`Machine.zextW`, `Machine.sextW`, `Machine.onBus`; assumption log 4). -/
abbrev Word := BitVec 64

/-- A byte: the pending byte or a sealed output byte (00_scope.md R8). -/
abbrev Byte := BitVec 8

end Sys2Proof
end

