-- ==== Sys2Proof/Syntax.lean ====
section
/-! DEFINITION. The command words as a host sends them, and the instructions they stand for: one constructor of `Instr` for
each row of spec/opcode_table.json. -/

namespace Sys2Proof

/-- The representation tags, "a closed set of five tags" (30_encoding.md R93). -/
inductive Rep where
  | sm  -- sign-magnitude
  | oc  -- ones' complement
  | tc  -- two's complement
  | bi  -- biased (excess-K)
  | nb  -- radix negative two
deriving DecidableEq, Repr

/-- One transaction on the command port: the three values it carries (30_encoding.md R90). -/
structure Command where
  cw   : BitVec 16
  data : Word
  bias : Word
deriving DecidableEq, Repr

/-- The fourteen commands (30_encoding.md R101) with the operands each one reads: the width field b = CW[14:8] (R94), DATA
(R95), BIAS (R96). A bus that a command ignores is no operand of it. -/
inductive Instr where
  | wbit   (data : Word)
  | abyte  (data : Word)
  | wuns   (b : BitVec 7) (data : Word)
  | wsigSm (b : BitVec 7) (data : Word)
  | wsigOc (b : BitVec 7) (data : Word)
  | wsigTc (b : BitVec 7) (data : Word)
  | wsigBi (b : BitVec 7) (data : Word) (bias : Word)
  | wsigNb (b : BitVec 7) (data : Word)
  | encSm  (b : BitVec 7) (data : Word)
  | encOc  (b : BitVec 7) (data : Word)
  | encTc  (b : BitVec 7) (data : Word)
  | encBi  (b : BitVec 7) (data : Word) (bias : Word)
  | encNb  (b : BitVec 7) (data : Word)
  | fin
deriving DecidableEq, Repr

end Sys2Proof
end

