-- ==== Sys2Proof/WellFormed.lean ====
section
/-! DEFINITION. Which instructions a host with W-bit buses can issue: every operand fits its bus (30_encoding.md R90, R102:
"An assembler refuses a literal outside the bus width"). A width above W is well-formed: it is encodable and raises
ERR_WIDTH (R94, R98). The bound of BITS, 0..127, is its type. -/

namespace Sys2Proof

/-- The value drives no line above the W of the bus. -/
def fitsBus (w : Nat) (x : Word) : Bool := decide (x.toNat < 2 ^ w)

/-- Every operand fits its W-bit bus. -/
def Instr.wellFormed (w : Nat) : Instr → Bool
  | .wbit data          => fitsBus w data
  | .abyte data         => fitsBus w data
  | .wuns _ data        => fitsBus w data
  | .wsigSm _ data      => fitsBus w data
  | .wsigOc _ data      => fitsBus w data
  | .wsigTc _ data      => fitsBus w data
  | .wsigBi _ data bias => fitsBus w data && fitsBus w bias
  | .wsigNb _ data      => fitsBus w data
  | .encSm _ data       => fitsBus w data
  | .encOc _ data       => fitsBus w data
  | .encTc _ data       => fitsBus w data
  | .encBi _ data bias  => fitsBus w data && fitsBus w bias
  | .encNb _ data       => fitsBus w data
  | .fin                => true

end Sys2Proof
end

