-- ==== Sys2Proof/Decode.lean ====
section
/-! DEFINITION. The decoder of the command word, total on all 65536 words and refusing the illegal ones by name, then the
encoder, then the opcode table (30_encoding.md R91 to R101). -/

namespace Sys2Proof

/-- The fields of format C (30_encoding.md R91). -/
def cwOp (cw : BitVec 16) : BitVec 4 := cw.extractLsb' 0 4
def cwRep (cw : BitVec 16) : BitVec 3 := cw.extractLsb' 4 3
def cwRsv0 (cw : BitVec 16) : BitVec 1 := cw.extractLsb' 7 1
def cwBits (cw : BitVec 16) : BitVec 7 := cw.extractLsb' 8 7
def cwRsv1 (cw : BitVec 16) : BitVec 1 := cw.extractLsb' 15 1

/-- The values of OP that are not reserved (30_encoding.md R92). -/
inductive Op where
  | wbit | abyte | wuns | wsig | enc | fin
deriving DecidableEq, Repr

/-- OP to operation; 0x0 and 0x7..0xF are reserved (30_encoding.md R92). -/
def opOf (o : BitVec 4) : Option Op :=
  match o.toNat with
  | 0x1 => some .wbit
  | 0x2 => some .abyte
  | 0x3 => some .wuns
  | 0x4 => some .wsig
  | 0x5 => some .enc
  | 0x6 => some .fin
  | _   => none

/-- REP to tag; 5..7 are reserved (30_encoding.md R93). -/
def repOf (r : BitVec 3) : Option Rep :=
  match r.toNat with
  | 0 => some .sm
  | 1 => some .oc
  | 2 => some .tc
  | 3 => some .bi
  | 4 => some .nb
  | _ => none

/-- Why a word is illegal: the conditions (a) to (e) of 30_encoding.md R98. All of them raise the one ERR_ILLEGAL, so which
one is named first cannot be observed (assumption log 12). -/
inductive Illegal where
  | reservedBit   -- (a) CW[7] or CW[15] is 1
  | reservedOp    -- (b) OP is 0x0 or 0x7..0xF
  | repNotZero    -- (c) REP is not 0 with WBIT, ABYTE, WUNS or FIN
  | reservedRep   -- (d) REP is 5..7 with WSIG or ENC
  | bitsNotZero   -- (e) BITS is not 0 with WBIT, ABYTE or FIN
deriving DecidableEq, Repr

/-- The WSIG command of a tag; BIAS is read only by BI (30_encoding.md R96). -/
def wsigOf (rep : Rep) (b : BitVec 7) (data bias : Word) : Instr :=
  match rep with
  | .sm => .wsigSm b data
  | .oc => .wsigOc b data
  | .tc => .wsigTc b data
  | .bi => .wsigBi b data bias
  | .nb => .wsigNb b data

/-- The ENC command of a tag; BIAS is read only by BI (30_encoding.md R96). -/
def encOf (rep : Rep) (b : BitVec 7) (data bias : Word) : Instr :=
  match rep with
  | .sm => .encSm b data
  | .oc => .encOc b data
  | .tc => .encTc b data
  | .bi => .encBi b data bias
  | .nb => .encNb b data

/-- A command whose REP and BITS fields are unused: both must be 0 (30_encoding.md R98 (c), (e)). -/
def decodePlain (cw : BitVec 16) (i : Instr) : Except Illegal Instr :=
  if cwRep cw ≠ 0 then .error .repNotZero
  else if cwBits cw ≠ 0 then .error .bitsNotZero
  else .ok i

/-- A command of the WSIG and ENC families: REP selects the tag (30_encoding.md R93, R98 (d)). -/
def decodeTagged (c : Command) (of : Rep → BitVec 7 → Word → Word → Instr) : Except Illegal Instr :=
  match repOf (cwRep c.cw) with
  | none     => .error .reservedRep
  | some rep => .ok (of rep (cwBits c.cw) c.data c.bias)

/-- The decoder (30_encoding.md R91 to R101). -/
def decode (c : Command) : Except Illegal Instr :=
  if cwRsv0 c.cw ≠ 0 ∨ cwRsv1 c.cw ≠ 0 then .error .reservedBit
  else
    match opOf (cwOp c.cw) with
    | none        => .error .reservedOp
    | some .wbit  => decodePlain c.cw (.wbit c.data)
    | some .abyte => decodePlain c.cw (.abyte c.data)
    | some .wuns  => if cwRep c.cw ≠ 0 then .error .repNotZero else .ok (.wuns (cwBits c.cw) c.data)
    | some .wsig  => decodeTagged c wsigOf
    | some .enc   => decodeTagged c encOf
    | some .fin   => decodePlain c.cw .fin

/-- The transaction whose command word is the low 16 of `nbits` bits, DATA and BIAS the 64-bit operand words that follow it;
the table gives its rows 16 bits, so that both are 0 (assumption log 2). -/
def Command.ofBits (nbits w : Nat) : Command :=
  let v := w % 2 ^ nbits
  { cw := BitVec.ofNat 16 v, data := BitVec.ofNat 64 (v / 2 ^ 16), bias := BitVec.ofNat 64 (v / 2 ^ 80) }

/-- What the decoder reads from an instruction of `nbits` bits numbered as spec/opcode_table.json numbers them. -/
def decodeTableWord (nbits w : Nat) : Option Instr := (decode (Command.ofBits nbits w)).toOption

/-- A command word laid out as format C: RSV1, BITS, RSV0, REP, OP from bit 15 down (30_encoding.md R91). -/
def packCw (op : BitVec 4) (rep : BitVec 3) (b : BitVec 7) : BitVec 16 := 0#1 ++ b ++ 0#1 ++ rep ++ op

/-- The transaction of an instruction; a bus it ignores is driven with 0, as the assembler does (30_encoding.md R102). -/
def encode : Instr → Command
  | .wbit data          => { cw := packCw 0x1 0 0, data := data, bias := 0 }
  | .abyte data         => { cw := packCw 0x2 0 0, data := data, bias := 0 }
  | .wuns b data        => { cw := packCw 0x3 0 b, data := data, bias := 0 }
  | .wsigSm b data      => { cw := packCw 0x4 0 b, data := data, bias := 0 }
  | .wsigOc b data      => { cw := packCw 0x4 1 b, data := data, bias := 0 }
  | .wsigTc b data      => { cw := packCw 0x4 2 b, data := data, bias := 0 }
  | .wsigBi b data bias => { cw := packCw 0x4 3 b, data := data, bias := bias }
  | .wsigNb b data      => { cw := packCw 0x4 4 b, data := data, bias := 0 }
  | .encSm b data       => { cw := packCw 0x5 0 b, data := data, bias := 0 }
  | .encOc b data       => { cw := packCw 0x5 1 b, data := data, bias := 0 }
  | .encTc b data       => { cw := packCw 0x5 2 b, data := data, bias := 0 }
  | .encBi b data bias  => { cw := packCw 0x5 3 b, data := data, bias := bias }
  | .encNb b data       => { cw := packCw 0x5 4 b, data := data, bias := 0 }
  | .fin                => { cw := packCw 0x6 0 0, data := 0, bias := 0 }

/-- One row of the opcode table: it matches a word cw when cw AND mask is pattern (30_encoding.md R101). -/
structure Row where
  mnemonic : String
  pattern  : BitVec 16
  mask     : BitVec 16
deriving DecidableEq, Repr

def Row.fits (r : Row) (cw : BitVec 16) : Bool := decide (cw &&& r.mask = r.pattern)

/-- The row of an instruction (30_encoding.md R101, spec/opcode_table.json). -/
def Instr.row : Instr → Row
  | .wbit _       => { mnemonic := "WBIT",    pattern := 0x0001, mask := 0xFFFF }
  | .abyte _      => { mnemonic := "ABYTE",   pattern := 0x0002, mask := 0xFFFF }
  | .wuns _ _     => { mnemonic := "WUNS",    pattern := 0x0003, mask := 0x80FF }
  | .wsigSm _ _   => { mnemonic := "WSIG.SM", pattern := 0x0004, mask := 0x80FF }
  | .wsigOc _ _   => { mnemonic := "WSIG.OC", pattern := 0x0014, mask := 0x80FF }
  | .wsigTc _ _   => { mnemonic := "WSIG.TC", pattern := 0x0024, mask := 0x80FF }
  | .wsigBi _ _ _ => { mnemonic := "WSIG.BI", pattern := 0x0034, mask := 0x80FF }
  | .wsigNb _ _   => { mnemonic := "WSIG.NB", pattern := 0x0044, mask := 0x80FF }
  | .encSm _ _    => { mnemonic := "ENC.SM",  pattern := 0x0005, mask := 0x80FF }
  | .encOc _ _    => { mnemonic := "ENC.OC",  pattern := 0x0015, mask := 0x80FF }
  | .encTc _ _    => { mnemonic := "ENC.TC",  pattern := 0x0025, mask := 0x80FF }
  | .encBi _ _ _  => { mnemonic := "ENC.BI",  pattern := 0x0035, mask := 0x80FF }
  | .encNb _ _    => { mnemonic := "ENC.NB",  pattern := 0x0045, mask := 0x80FF }
  | .fin          => { mnemonic := "FIN",     pattern := 0x0006, mask := 0xFFFF }

/-- The whole table (30_encoding.md R101). -/
def opcodeRows : List Row :=
  [.wbit 0, .abyte 0, .wuns 0 0, .wsigSm 0 0, .wsigOc 0 0, .wsigTc 0 0, .wsigBi 0 0 0, .wsigNb 0 0,
   .encSm 0 0, .encOc 0 0, .encTc 0 0, .encBi 0 0 0, .encNb 0 0, .fin].map Instr.row

end Sys2Proof
end

