-- ==== Sys2Proof/Config.lean ====
section
/-! DEFINITION. What an implementation fixes for one instance before reset: W and BUF_CAP (00_scope.md R6, R7). The spec
leaves no value free, so there is no free value here. -/

namespace Sys2Proof

/-- The implementation parameters of one instance, "fixed for the instance before reset" (70_reset_and_hazards.md R253).
They are data of State, so that every claim is made for all of them (assumption log 1). -/
structure Params where
  /-- W, the native width (00_scope.md R6). -/
  w : Nat
  /-- BUF_CAP, the output capacity in bytes, `none` for unbounded (00_scope.md R7). -/
  bufCap : Option Nat
deriving DecidableEq, Repr

/-- The legal values of the parameters: 8 ≤ W ≤ 64, any BUF_CAP (00_scope.md R6, R7). -/
abbrev Params.Legal (p : Params) : Prop := 8 ≤ p.w ∧ p.w ≤ 64

/-- The parameters of `Machine.State.reset`: the spec's default W = 64 (R6), and BUF_CAP unbounded, which is this model's
DESIGN CHOICE since the spec leaves it OPEN (R7; assumption log 1). -/
def Params.standard : Params := { w := 64, bufCap := none }

end Sys2Proof
end

