-- ==== Sys2Proof/Machine/State.lean ====
section
/-! DEFINITION. The state of one SBW instance as plain data, what passes between the host and the block, the reasons a step
can stop (there is none but an instruction without a meaning), and the state right after RESET (10_state.md). -/

namespace Sys2Proof.Machine

/-- A memory: pairs of an address and the byte it holds, addresses strictly rising (`Memory.wf`). An unlisted address holds
no byte (20_memory.md R69; assumption log 5). -/
abbrev Memory := List Host.Cell

/-- The status codes of a response (60_exceptions.md R221; the numbers are `Status.code`). -/
inductive Status where
  | ok
  | errIllegal
  | errState
  | errWidth
  | errValue
  | errRange
  | errFull
deriving DecidableEq, Repr

/-- The response to a command (30_encoding.md R97). -/
structure Response where
  status : Status
  trunc  : Bool
  result : Word
deriving DecidableEq, Repr

/-- What a host can do to the block, exactly (30_encoding.md R104). -/
inductive Interaction where
  | command (c : Command)
  | readByte (i : Nat)
  | readStatus
  | readOutLen
  | reset
deriving DecidableEq, Repr

/-- What the host gets back (30_encoding.md R104); RESET gives nothing back (70_reset_and_hazards.md R250). -/
inductive Reply where
  | response (r : Response)
  | byte (rdOk : Bool) (rdData : Byte)
  | statusWord (w : BitVec 16)
  | outLen (n : Nat)
deriving DecidableEq, Repr

/-- The state: the parameters of the instance, the architectural state of 10_state.md R30, and the model's own record of what
the host will still issue and what it has got back. -/
structure State where
  /-- W and BUF_CAP (00_scope.md R6, R7); no step changes them. -/
  params : Params
  /-- OUT, the output buffer (10_state.md R34, R43). -/
  out : Memory
  /-- OUT_LEN, the number of sealed bytes (10_state.md R35). -/
  outLen : Nat
  /-- PB, the pending byte (10_state.md R36, R37). -/
  pb : Byte
  /-- PCNT, the number of bits placed in PB (10_state.md R38). -/
  pcnt : BitVec 3
  /-- FIN, the lifecycle mode: false OPEN, true FINALIZED (10_state.md R39, 60_exceptions.md R234). -/
  fin : Bool
  /-- The MODEL's own: the interactions the host has still to issue, the next one first (assumption log 2). -/
  pending : List Interaction
  /-- The MODEL's own: what the host has got back, oldest first (assumption log 3). -/
  replies : List Reply
deriving DecidableEq, Repr

/-- The reasons the machine stops with a fault: none. "No behaviour in this spec is `stuck`. Every command word, in every
state, leads to a defined response and a defined next state" (93_implementation_defined.md). The spec's errors are responses
of a next state (60_exceptions.md R220; assumption log 14). -/
inductive Fault
deriving DecidableEq, Repr

/-- The reasons a step has no meaning. -/
inductive Refusal where
  /-- Raised by `exec` alone, for an instruction that has no meaning yet; safe. No arm raises it now. -/
  | notModelled (mnemonic : String)
deriving DecidableEq, Repr

/-- The state right after RESET of an instance with the given parameters, whose host is about to issue the given interactions
(10_state.md R45, 70_reset_and_hazards.md R250, R261). -/
def State.afterReset (p : Params) (pending : List Interaction) : State :=
  { params := p, out := [], outLen := 0, pb := 0, pcnt := 0, fin := false, pending := pending, replies := [] }

/-- The state right after RESET: the values of 10_state.md R45, the default parameters, nothing issued yet. -/
def State.reset : State := State.afterReset Params.standard []

end Sys2Proof.Machine
end

