-- ==== Sys2Proof/Machine/Ops.lean ====
section
/-! DEFINITION. The named operations over the output memory and the accumulator, the answer to a command, and the one way an
error is taken (00_scope.md R13, R14; 40_accumulator.md R120 to R123). -/

namespace Sys2Proof.Machine

/-- The byte a memory holds at an address, if any. -/
def Memory.read (m : Memory) (a : Nat) : Option Byte :=
  match m with
  | [] => none
  | (k, x) :: rest => if k = a then some x else Memory.read rest a

/-- The memory with the byte at the address, in the canonical form. -/
def Memory.write (m : Memory) (a : Nat) (x : Byte) : Memory :=
  match m with
  | [] => [(a, x)]
  | (k, y) :: rest =>
    if a < k then (a, x) :: (k, y) :: rest
    else if a = k then (a, x) :: rest
    else (k, y) :: Memory.write rest a x

/-- The canonical form of a memory: addresses strictly rising. An unlisted address holds no byte, and every entry holds one,
so no entry equals what an unlisted address reads as. -/
def Memory.wf (m : Memory) : Bool :=
  match m with
  | [] => true
  | (k, _) :: rest => rest.all (fun c => decide (k < c.1)) && Memory.wf rest

/-- A number on the W-bit RESULT bus: its value mod 2^W (00_scope.md R9, 30_encoding.md R97). -/
def onBus (w n : Nat) : Word := BitVec.ofNat 64 (n % 2 ^ w)

/-- The host gets an answer. -/
def reply (r : Reply) (s : State) : State := { s with replies := s.replies ++ [r] }

/-- `respond(OK, trunc, result)`: the end of a command that completed (00_scope.md R14, 30_encoding.md R97). -/
def respond (trunc : Bool) (result : Nat) (s : State) : State :=
  reply (.response { status := .ok, trunc := trunc, result := onBus s.params.w result }) s

/-- `raise <Code>`: taking an error, which is all that an exception is here. The response carries the code, TRUNC = 0 and
RESULT = 0, and all state stays (00_scope.md R14, 60_exceptions.md R220, R231). No command returns from one (R232). -/
def raise (code : Status) (s : State) : State :=
  reply (.response { status := code, trunc := false, result := 0 }) s

/-- `Seal(x)`, the only write to the output buffer: one byte at address OUT_LEN (00_scope.md R13, 10_state.md R34, R35,
40_accumulator.md R135). -/
def sealByte (x : Byte) (s : State) : State :=
  { s with out := Memory.write s.out s.outLen x, outLen := s.outLen + 1 }

/-- One turn of the loop of `PutBits`: place the bit at PB[7 - PCNT], and seal at the eighth (40_accumulator.md R120). -/
def placeBit (bit : Bool) (s : State) : State :=
  let pb := BitVec.ofNat 8 (s.pb.toNat + bit.toNat * 2 ^ (7 - s.pcnt.toNat))
  if s.pcnt.toNat + 1 = 8 then { sealByte pb s with pb := 0, pcnt := 0 }
  else { s with pb := pb, pcnt := s.pcnt + 1 }

/-- `PutBits(p, n)`: the n low bits of p at the cursor, p[n-1] first (40_accumulator.md R120). -/
def putBits (p n : Nat) (s : State) : State :=
  match n with
  | 0     => s
  | n + 1 => putBits p n (placeBit (p.testBit n) s)

/-- `SealCount(n)`: the bytes `PutBits` of n bits seals from here (40_accumulator.md R122). -/
def sealCount (n : Nat) (s : State) : Nat := (s.pcnt.toNat + n) / 8

/-- `CapOK(k)`: k more bytes fit the output buffer (40_accumulator.md R123). -/
def capOk (k : Nat) (s : State) : Bool :=
  match s.params.bufCap with
  | none   => true
  | some c => decide (s.outLen + k ≤ c)

end Sys2Proof.Machine
end

