-- ==== Sys2Proof/Machine/Operands.lean ====
section
/-! DEFINITION. How a command reads its operands: the width field, and DATA and BIAS as unsigned or signed W-bit numbers
(00_scope.md R12, 30_encoding.md R94 to R96). -/

namespace Sys2Proof.Machine

/-- `zext_W`: the W lines of a bus read as an unsigned number (00_scope.md R12). -/
def zextW (w : Nat) (x : Word) : Nat := x.toNat % 2 ^ w

/-- `sext_W`: the W lines of a bus read in two's complement: minus 2^W if bit W-1 is 1 (00_scope.md R12). -/
def sextW (w : Nat) (x : Word) : Int :=
  if (zextW w x).testBit (w - 1) then (zextW w x : Int) - 2 ^ w else zextW w x

/-- `b = zext_7(CW[14:8])`, without scaling or offset (30_encoding.md R94). -/
def bitsCount (b : BitVec 7) : Nat := b.toNat

/-- The width is not legal: b > W (30_encoding.md R94, 60_exceptions.md R224). -/
def tooWide (b : BitVec 7) (s : State) : Bool := decide (s.params.w < bitsCount b)

end Sys2Proof.Machine
end

