-- ==== Sys2Proof/Machine/Flags.lean ====
section
/-! DEFINITION. The flags: the TRUNC bit of each command, the numbers of the status codes, and the STATUS word. None persists
between commands (10_state.md R33, R41; 30_encoding.md R97; 60_exceptions.md R221, R229). -/

namespace Sys2Proof.Machine

/-- TRUNC of WUNS: the value does not fit b bits (40_accumulator.md R127). -/
def truncUnsigned (value b : Nat) : Bool := decide (2 ^ b ≤ value)

/-- TRUNC of two's complement: v outside -2^(b-1) .. 2^(b-1)-1 (41_signed_encoder.md R164). -/
def truncTc (v : Int) (b : Nat) : Bool := !decide (-2 ^ (b - 1) ≤ v ∧ v ≤ 2 ^ (b - 1) - 1)

/-- TRUNC of biased: the sum outside 0 .. 2^b-1 (41_signed_encoder.md R165). -/
def truncBi (sum : Int) (b : Nat) : Bool := !decide (0 ≤ sum ∧ sum ≤ 2 ^ b - 1)

/-- TRUNC of radix -2: the digit budget ran out before the running value reached 0 (41_signed_encoder.md R166). -/
def truncNb (rest : Int) : Bool := decide (rest ≠ 0)

/-- The numbers of the status codes (60_exceptions.md R221). -/
def Status.code : Status → BitVec 4
  | .ok         => 0
  | .errIllegal => 1
  | .errState   => 2
  | .errWidth   => 3
  | .errValue   => 4
  | .errRange   => 5
  | .errFull    => 6

/-- The STATUS word: PB in 15:8, 0 in 7:4, FIN in 3, PCNT in 2:0 (10_state.md R41). -/
def statusWord (s : State) : BitVec 16 := s.pb ++ 0#4 ++ BitVec.ofBool s.fin ++ s.pcnt

end Sys2Proof.Machine
end

