-- ==== Sys2Proof/Machine/Accumulator.lean ====
section
/-! DEFINITION. The commands of the Bit Accumulator: WBIT, ABYTE, WUNS and FIN (40_accumulator.md R124 to R130). -/

namespace Sys2Proof.Machine

/-- WBIT, `writeBit(b)` (40_accumulator.md R124). -/
def execWbit (data : Word) (s : State) : Host.Outcome State Fault Refusal :=
  let x := zextW s.params.w data
  if s.fin then .next (raise .errState s)
  else if 1 < x then .next (raise .errValue s)
  else if !capOk (sealCount 1 s) s then .next (raise .errFull s)
  else .next (respond false 0 (putBits x 1 s))

/-- ABYTE, `appendByte(v)`: sealed directly at an aligned cursor, placed bit by bit elsewhere (40_accumulator.md R125,
R126). -/
def execAbyte (data : Word) (s : State) : Host.Outcome State Fault Refusal :=
  let x := zextW s.params.w data
  if s.fin then .next (raise .errState s)
  else if 255 < x then .next (raise .errValue s)
  else if !capOk 1 s then .next (raise .errFull s)
  else if s.pcnt = 0 then .next (respond false 0 (sealByte (BitVec.ofNat 8 x) s))
  else .next (respond false 0 (putBits x 8 s))

/-- WUNS, `writeUnsigned(value, bitsCount)`: the value is truncated to b bits without an error (40_accumulator.md R127). -/
def execWuns (b : BitVec 7) (data : Word) (s : State) : Host.Outcome State Fault Refusal :=
  let n := bitsCount b
  let value := zextW s.params.w data
  let p := value % 2 ^ n
  if s.fin then .next (raise .errState s)
  else if tooWide b s then .next (raise .errWidth s)
  else if !capOk (sealCount n s) s then .next (raise .errFull s)
  else .next (respond (truncUnsigned value n) p (putBits p n s))

/-- Seal the pending byte if it holds a bit, and close the writer: the effect of the first FIN (40_accumulator.md R129). -/
def finalize (s : State) : State :=
  if s.pcnt = 0 then { s with fin := true }
  else { sealByte s.pb s with pb := 0, pcnt := 0, fin := true }

/-- FIN, `finalize()`; repeated, it changes nothing and answers OUT_LEN again (40_accumulator.md R129, R130). -/
def execFin (s : State) : Host.Outcome State Fault Refusal :=
  if s.fin then .next (respond false s.outLen s)
  else if !capOk (if s.pcnt = 0 then 0 else 1) s then .next (raise .errFull s)
  else .next (respond false (finalize s).outLen (finalize s))

end Sys2Proof.Machine
end

