-- ==== Sys2Proof/Machine/SignedEncoder.lean ====
section
/-! DEFINITION. The Signed Encoder: the pure function `Encode` and its five representations (41_signed_encoder.md R160 to
R166). It holds no state (10_state.md R46). -/

namespace Sys2Proof.Machine

/-- What `Encode` returns: `RANGE`, or the pattern with its TRUNC bit (41_signed_encoder.md R160). -/
inductive Encoded where
  | range
  | pattern (p : Nat) (trunc : Bool)
deriving DecidableEq, Repr

/-- Sign-magnitude, b ≥ 1 (41_signed_encoder.md R162). -/
def encodeSm (v : Int) (b : Nat) : Encoded :=
  if 2 ^ (b - 1) - 1 < v.natAbs then .range
  else .pattern ((if v < 0 then 1 else 0) * 2 ^ (b - 1) + v.natAbs) false

/-- Ones' complement, b ≥ 1 (41_signed_encoder.md R163). -/
def encodeOc (v : Int) (b : Nat) : Encoded :=
  if 2 ^ (b - 1) - 1 < v.natAbs then .range
  else if 0 ≤ v then .pattern v.toNat false
  else .pattern ((2 ^ b - 1) ^^^ v.natAbs) false

/-- Two's complement, b ≥ 1: the value wraps (41_signed_encoder.md R164). -/
def encodeTc (v : Int) (b : Nat) : Encoded := .pattern (v % 2 ^ b).toNat (truncTc v b)

/-- Biased, b ≥ 1: the exact sum wraps (41_signed_encoder.md R165). -/
def encodeBi (v : Int) (b : Nat) (bias : Int) : Encoded :=
  .pattern ((v + bias) % 2 ^ b).toNat (truncBi (v + bias) b)

/-- The loop of radix -2: `left` digits from digit i on, running value r, pattern so far p. It answers the pattern and the
last running value (41_signed_encoder.md R166). -/
def nbLoop (left i : Nat) (r : Int) (p : Nat) : Nat × Int :=
  match left with
  | 0        => (p, r)
  | left + 1 =>
    let d := r % 2
    nbLoop left (i + 1) ((r - d) / (-2)) (p + d.toNat * 2 ^ i)

/-- Radix negative two, b ≥ 1 (41_signed_encoder.md R166). -/
def encodeNb (v : Int) (b : Nat) : Encoded :=
  let (p, r) := nbLoop b 0 v 0
  .pattern p (truncNb r)

/-- `Encode(v, b, rep, bias)`; width zero gives (0, 0) without a range check (41_signed_encoder.md R160, R161). -/
def encodeSigned (v : Int) (b : Nat) (rep : Rep) (bias : Int) : Encoded :=
  if b = 0 then .pattern 0 false
  else
    match rep with
    | .sm => encodeSm v b
    | .oc => encodeOc v b
    | .tc => encodeTc v b
    | .bi => encodeBi v b bias
    | .nb => encodeNb v b

end Sys2Proof.Machine
end

