-- ==== Sys2Proof/Machine/SignedEncode.lean ====
section
/-! DEFINITION. The five ENC commands, which return the encoder's pattern and touch no state (41_signed_encoder.md R175 to
R180). -/

namespace Sys2Proof.Machine

/-- The shared pseudocode of ENC, legal in both lifecycle modes (41_signed_encoder.md R175). -/
def encodeOnly (rep : Rep) (b : BitVec 7) (data bias : Word) (s : State) : State :=
  if tooWide b s then raise .errWidth s
  else
    match encodeSigned (sextW s.params.w data) (bitsCount b) rep (sextW s.params.w bias) with
    | .range => raise .errRange s
    | .pattern p t => respond t p s

/-- ENC.SM (41_signed_encoder.md R176). -/
def execEncSm (b : BitVec 7) (data : Word) (s : State) : Host.Outcome State Fault Refusal :=
  .next (encodeOnly .sm b data 0 s)

/-- ENC.OC (41_signed_encoder.md R177). -/
def execEncOc (b : BitVec 7) (data : Word) (s : State) : Host.Outcome State Fault Refusal :=
  .next (encodeOnly .oc b data 0 s)

/-- ENC.TC (41_signed_encoder.md R178). -/
def execEncTc (b : BitVec 7) (data : Word) (s : State) : Host.Outcome State Fault Refusal :=
  .next (encodeOnly .tc b data 0 s)

/-- ENC.BI, the one ENC that reads BIAS (41_signed_encoder.md R179, 30_encoding.md R96). -/
def execEncBi (b : BitVec 7) (data bias : Word) (s : State) : Host.Outcome State Fault Refusal :=
  .next (encodeOnly .bi b data bias s)

/-- ENC.NB (41_signed_encoder.md R180). -/
def execEncNb (b : BitVec 7) (data : Word) (s : State) : Host.Outcome State Fault Refusal :=
  .next (encodeOnly .nb b data 0 s)

end Sys2Proof.Machine
end

