-- ==== Sys2Proof/Machine/SignedWrite.lean ====
section
/-! DEFINITION. The five WSIG commands, which encode and then write through the accumulator (41_signed_encoder.md R170 to
R174). -/

namespace Sys2Proof.Machine

/-- The pseudocode "shared by all five WSIG rules with the rule's own REP" (41_signed_encoder.md R170). -/
def writeSigned (rep : Rep) (b : BitVec 7) (data bias : Word) (s : State) : State :=
  let n := bitsCount b
  if s.fin then raise .errState s
  else if tooWide b s then raise .errWidth s
  else
    match encodeSigned (sextW s.params.w data) n rep (sextW s.params.w bias) with
    | .range => raise .errRange s
    | .pattern p t =>
      if !capOk (sealCount n s) s then raise .errFull s
      else respond t p (putBits p n s)

/-- WSIG.SM (41_signed_encoder.md R170). -/
def execWsigSm (b : BitVec 7) (data : Word) (s : State) : Host.Outcome State Fault Refusal :=
  .next (writeSigned .sm b data 0 s)

/-- WSIG.OC (41_signed_encoder.md R171). -/
def execWsigOc (b : BitVec 7) (data : Word) (s : State) : Host.Outcome State Fault Refusal :=
  .next (writeSigned .oc b data 0 s)

/-- WSIG.TC (41_signed_encoder.md R172). -/
def execWsigTc (b : BitVec 7) (data : Word) (s : State) : Host.Outcome State Fault Refusal :=
  .next (writeSigned .tc b data 0 s)

/-- WSIG.BI, the one WSIG that reads BIAS (41_signed_encoder.md R173, 30_encoding.md R96). -/
def execWsigBi (b : BitVec 7) (data bias : Word) (s : State) : Host.Outcome State Fault Refusal :=
  .next (writeSigned .bi b data bias s)

/-- WSIG.NB (41_signed_encoder.md R174). -/
def execWsigNb (b : BitVec 7) (data : Word) (s : State) : Host.Outcome State Fault Refusal :=
  .next (writeSigned .nb b data 0 s)

end Sys2Proof.Machine
end

