-- ==== Sys2Proof/Machine/Dispatch.lean ====
section
/-! DEFINITION. One arm per instruction, each one call of its meaning. -/

namespace Sys2Proof.Machine

def exec (i : Instr) (s : State) : Host.Outcome State Fault Refusal :=
  match i with
  | .wbit data => Sys2Proof.Machine.execWbit data s
  | .abyte data => Sys2Proof.Machine.execAbyte data s
  | .wuns b data => Sys2Proof.Machine.execWuns b data s
  | .wsigSm b data => Sys2Proof.Machine.execWsigSm b data s
  | .wsigOc b data => Sys2Proof.Machine.execWsigOc b data s
  | .wsigTc b data => Sys2Proof.Machine.execWsigTc b data s
  | .wsigBi b data bias => Sys2Proof.Machine.execWsigBi b data bias s
  | .wsigNb b data => Sys2Proof.Machine.execWsigNb b data s
  | .encSm b data => Sys2Proof.Machine.execEncSm b data s
  | .encOc b data => Sys2Proof.Machine.execEncOc b data s
  | .encTc b data => Sys2Proof.Machine.execEncTc b data s
  | .encBi b data bias => Sys2Proof.Machine.execEncBi b data bias s
  | .encNb b data => Sys2Proof.Machine.execEncNb b data s
  | .fin => Sys2Proof.Machine.execFin s

end Sys2Proof.Machine
end

