-- ==== Sys2Proof/Machine/HostPort.lean ====
section
/-! DEFINITION. The host's other interactions: the read port, the status port, the OUT_LEN port and RESET (20_memory.md R66,
10_state.md R41, 30_encoding.md R104, 70_reset_and_hazards.md R250), and how the host issues the next one. -/

namespace Sys2Proof.Machine

/-- `MemRead(i, 1)`: (RD_OK, RD_DATA), the byte at an address below OUT_LEN, else (0, 0x00) (20_memory.md R66). -/
def memRead (i : Nat) (s : State) : Bool × Byte :=
  match (if i < s.outLen then Memory.read s.out i else none) with
  | some x => (true, x)
  | none   => (false, 0)

/-- The host has issued its next interaction: the others remain. -/
def issued (rest : List Interaction) (s : State) : State := { s with pending := rest }

/-- A read of the byte port; it changes no state (20_memory.md R66). -/
def serveReadByte (i : Nat) (s : State) : State := reply (.byte (memRead i s).1 (memRead i s).2) s

/-- A read of the status port; it has no side effect (10_state.md R41). -/
def serveReadStatus (s : State) : State := reply (.statusWord (statusWord s)) s

/-- A read of the OUT_LEN port (30_encoding.md R104, 10_state.md R41). -/
def serveReadOutLen (s : State) : State := reply (.outLen s.outLen) s

/-- RESET: every piece of architectural state at its reset value; no answer. The parameters are fixed before it and stay
(70_reset_and_hazards.md R250, R253; assumption log 16). -/
def applyReset (s : State) : State :=
  { s with out := [], outLen := 0, pb := 0, pcnt := 0, fin := false }

/-- A block to which the host issues nothing "holds its state indefinitely" (60_exceptions.md R239; assumption log 6). -/
def idle (s : State) : State := s

/-- The host issues the transaction before anything else it has still to issue. -/
def issueFirst (c : Command) (s : State) : State := { s with pending := .command c :: s.pending }

end Sys2Proof.Machine
end

