-- ==== Sys2Proof/Machine/Step.lean ====
section
/-! DEFINITION. One step: the block carries out the host's next interaction, whole (00_scope.md R15, 30_encoding.md R104).
The SBW fetches nothing (10_state.md R32, 20_memory.md R76): commands come from the host. -/

namespace Sys2Proof.Machine

/-- A command: decoded first; an illegal word raises ERR_ILLEGAL in either lifecycle mode before any other check
(60_exceptions.md R222). -/
def runCommand (c : Command) (s : State) : Host.Outcome State Fault Refusal :=
  match decode c with
  | .ok i    => exec i s
  | .error _ => .next (raise .errIllegal s)

def step (s : State) : Host.Outcome State Fault Refusal :=
  match s.pending with
  | []                  => .next (idle s)
  | .command c :: rest  => runCommand c (issued rest s)
  | .readByte i :: rest => .next (serveReadByte i (issued rest s))
  | .readStatus :: rest => .next (serveReadStatus (issued rest s))
  | .readOutLen :: rest => .next (serveReadOutLen (issued rest s))
  | .reset :: rest      => .next (applyReset (issued rest s))

/-- The state in which the host's next interaction is the command with these bits: where the block gets its next
instruction (assumption log 2). -/
def State.withFetchWord (s : State) (nbits w : Nat) : State := issueFirst (Command.ofBits nbits w) s

end Sys2Proof.Machine
end

