-- ==== Sys2Proof/Machine/Assembler.lean ====
section
/-! DEFINITION. The spec's assembly syntax: from a line of text to the transaction it stands for (30_encoding.md R102, R103).
It is a host's tool; no step uses it. White space, blank and comment-only lines and the literal bounds are this model's reading
(assumption log 17). -/

namespace Sys2Proof.Machine

/-- A line of assembly: one command, or a raw word (30_encoding.md R102). `bias` is written only with the tag BI. -/
inductive AsmLine where
  | wbit (bit : Int)
  | abyte (byte : Int)
  | wuns (value b : Int)
  | wsig (rep : Rep) (value b bias : Int)
  | enc (rep : Rep) (value b bias : Int)
  | fin
  | word (cw : Int)
deriving DecidableEq, Repr

/-- A literal on a W-bit bus, "value mod 2^W"; one outside the bus width is refused (30_encoding.md R102). -/
def asmBus (w : Nat) (x : Int) : Option Word :=
  if -2 ^ (w - 1) ≤ x ∧ x ≤ 2 ^ w - 1 then some (BitVec.ofNat 64 (x % 2 ^ w).toNat) else none

/-- The width field: b outside 0..127 is refused, b above W is not (30_encoding.md R102). -/
def asmBits (b : Int) : Option (BitVec 7) :=
  if 0 ≤ b ∧ b ≤ 127 then some (BitVec.ofNat 7 b.toNat) else none

/-- The REP number of a tag (30_encoding.md R93). -/
def repCode : Rep → BitVec 3
  | .sm => 0
  | .oc => 1
  | .tc => 2
  | .bi => 3
  | .nb => 4

/-- The columns CW, DATA and BIAS of the table of 30_encoding.md R102, for a tagged command with opcode op. -/
def asmTagged (w : Nat) (op : BitVec 4) (rep : Rep) (value b bias : Int) : Option Command := do
  let n ← asmBits b
  let data ← asmBus w value
  let k ← asmBus w (if rep = .bi then bias else 0)
  some { cw := packCw op (repCode rep) n, data := data, bias := k }

/-- The transaction a line stands for, or none where the assembler refuses it (30_encoding.md R102). -/
def assemble (w : Nat) : AsmLine → Option Command
  | .wbit bit              => (asmBus w bit).map fun d => { cw := 0x0001, data := d, bias := 0 }
  | .abyte byte            => (asmBus w byte).map fun d => { cw := 0x0002, data := d, bias := 0 }
  | .wuns value b          => asmTagged w 0x3 .sm value b 0
  | .wsig rep value b bias => asmTagged w 0x4 rep value b bias
  | .enc rep value b bias  => asmTagged w 0x5 rep value b bias
  | .fin                   => some { cw := 0x0006, data := 0, bias := 0 }
  | .word cw               =>
    if 0 ≤ cw ∧ cw ≤ 0xFFFF then some { cw := BitVec.ofNat 16 cw.toNat, data := 0, bias := 0 } else none

def isBlank (c : Char) : Bool := c = ' ' || c = '\t'

def trimBlanks (t : List Char) : List Char :=
  ((t.dropWhile isBlank).reverse.dropWhile isBlank).reverse

/-- The value of a digit in a base up to 16; letters of both cases are digits. -/
def digitValue (c : Char) : Option Nat :=
  let n := c.toNat
  if 48 ≤ n ∧ n ≤ 57 then some (n - 48)
  else if 97 ≤ n ∧ n ≤ 102 then some (n - 87)
  else if 65 ≤ n ∧ n ≤ 70 then some (n - 55)
  else none

/-- The digits of a number in a base, most significant first, continuing from the value so far. -/
def readDigits (base : Nat) (t : List Char) (sofar : Nat) : Option Nat :=
  match t with
  | [] => some sofar
  | c :: rest =>
    match digitValue c with
    | some d => if d < base then readDigits base rest (sofar * base + d) else none
    | none   => none

def readNumber (base : Nat) (t : List Char) : Option Nat := if t = [] then none else readDigits base t 0

/-- "Integer literals are decimal, optionally negative, or hexadecimal with 0x" (30_encoding.md R102). -/
def readLiteral (t : List Char) : Option Int :=
  match t with
  | '-' :: rest        => (readNumber 10 rest).map fun n => -(n : Int)
  | '0' :: 'x' :: rest => (readNumber 16 rest).map fun n => (n : Int)
  | _                  => (readNumber 10 t).map fun n => (n : Int)

/-- Operands are separated by commas (30_encoding.md R102). -/
def splitCommas (t : List Char) : List (List Char) :=
  match t with
  | [] => [[]]
  | c :: rest =>
    if c = ',' then [] :: splitCommas rest
    else
      match splitCommas rest with
      | []        => [[c]]
      | f :: more => (c :: f) :: more

def readOperands (t : List Char) : Option (List Int) :=
  if trimBlanks t = [] then some [] else (splitCommas t).mapM fun o => readLiteral (trimBlanks o)

/-- The suffix of a tagged mnemonic (30_encoding.md R93). -/
def repSuffix (t : List Char) : Option Rep :=
  match t with
  | ['.', 's', 'm'] => some .sm
  | ['.', 'o', 'c'] => some .oc
  | ['.', 't', 'c'] => some .tc
  | ['.', 'b', 'i'] => some .bi
  | ['.', 'n', 'b'] => some .nb
  | _               => none

/-- The operands of a tagged command: value and b, and bias with BI alone (30_encoding.md R102). -/
def taggedLine (mk : Rep → Int → Int → Int → AsmLine) (suffix : List Char) (ops : List Int) : Option AsmLine :=
  match repSuffix suffix, ops with
  | some .bi, [v, b, bias] => some (mk .bi v b bias)
  | some .sm, [v, b]       => some (mk .sm v b 0)
  | some .oc, [v, b]       => some (mk .oc v b 0)
  | some .tc, [v, b]       => some (mk .tc v b 0)
  | some .nb, [v, b]       => some (mk .nb v b 0)
  | _, _                   => none

/-- A mnemonic with its operands; there are no pseudo-instructions (30_encoding.md R102, R103). -/
def readCommand (mnemonic : List Char) (ops : List Int) : Option AsmLine :=
  match mnemonic, ops with
  | ['w', 'b', 'i', 't'], [x]                => some (.wbit x)
  | ['a', 'b', 'y', 't', 'e'], [x]           => some (.abyte x)
  | ['w', 'u', 'n', 's'], [v, b]             => some (.wuns v b)
  | ['f', 'i', 'n'], []                      => some .fin
  | ['(', 'w', 'o', 'r', 'd', ')'], [cw]     => some (.word cw)
  | 'w' :: 's' :: 'i' :: 'g' :: suffix, ops  => taggedLine .wsig suffix ops
  | 'e' :: 'n' :: 'c' :: suffix, ops         => taggedLine .enc suffix ops
  | _, _                                     => none

/-- One line of text: a command, nothing, or an error (the outer none). `;` starts a comment (30_encoding.md R102). DESIGN
CHOICE: a blank or comment-only line stands for no command; R102 and R103 ("Every line is one command") are silent on such lines
(assumption log 17). -/
def readLine (t : List Char) : Option (Option AsmLine) :=
  let code := trimBlanks (t.takeWhile (· ≠ ';'))
  if code = [] then some none
  else
    let mnemonic := code.takeWhile (fun c => !isBlank c)
    ((readOperands (code.drop mnemonic.length)).bind (readCommand mnemonic)).map some

/-- A text, line by line, as the commands a host issues. DESIGN CHOICE: none, for the whole text, if the assembler refuses a line
(assumption log 17). -/
def assembleText (w : Nat) (lines : List (List Char)) : Option (List Interaction) :=
  match lines with
  | [] => some []
  | t :: rest =>
    match readLine t, assembleText w rest with
    | some none, some cs     => some cs
    | some (some l), some cs => (assemble w l).map fun c => .command c :: cs
    | _, _                   => none

end Sys2Proof.Machine
end

