-- ==== Sys2Proof/Machine/Bulk.lean ====
section
/-! DEFINITION. The closed form of `PutBits`, "the one a bulk, byte-aligned implementation computes" (40_accumulator.md R121,
R128). The meanings use the bit-by-bit rule (assumption log 18); that both agree is a claim. -/

namespace Sys2Proof.Machine

/-- `v[hi:lo]` of a non-negative number (00_scope.md R11). -/
def slice (v hi lo : Nat) : Nat := v / 2 ^ lo % 2 ^ (hi - lo + 1)

/-- Seal whole bytes j, j+1, .. of the T-bit stream c, `left` of them (40_accumulator.md R121). -/
def sealStream (c T j left : Nat) (s : State) : State :=
  match left with
  | 0        => s
  | left + 1 => sealStream c T (j + 1) left (sealByte (BitVec.ofNat 8 (slice c (T - 1 - 8 * j) (T - 8 - 8 * j))) s)

/-- `PutBits(p, n)` in closed form (40_accumulator.md R121). -/
def putBitsBulk (p n : Nat) (s : State) : State :=
  let k0  := s.pcnt.toNat
  let acc := s.pb.toNat / 2 ^ (8 - k0)
  let T   := k0 + n
  let c   := acc * 2 ^ n + p
  let m   := T / 8
  let r   := T % 8
  { sealStream c T 0 m s with pb := BitVec.ofNat 8 (c % 2 ^ r * 2 ^ (8 - r)), pcnt := BitVec.ofNat 3 r }

end Sys2Proof.Machine
end

