-- ==== Sys2Proof/Machine/Reader.lean ====
section
/-! DEFINITION. What claims about the Signed Encoder are stated with: the interpretation functions `Val_R` of the external
reader, "test laws, not hardware" (41_signed_encoder.md R190), the representable ranges (R162 to R169) and the closed form of
radix -2 (R168). No meaning uses them. -/

namespace Sys2Proof.Machine

/-- The sum over i < b of p[i] times (-2)^i (41_signed_encoder.md R190). -/
def nbValue (p b : Nat) : Int :=
  match b with
  | 0     => 0
  | b + 1 => nbValue p b + (if p.testBit b then (-2) ^ b else 0)

/-- `Val_R(p, b)` for b ≥ 1 and p < 2^b (41_signed_encoder.md R190). -/
def readerValue (rep : Rep) (p b : Nat) (bias : Int) : Int :=
  match rep with
  | .sm => (if p.testBit (b - 1) then -1 else 1) * ((p % 2 ^ (b - 1) : Nat) : Int)
  | .oc => if p.testBit (b - 1) then (p : Int) - (2 ^ b - 1) else p
  | .tc => if p.testBit (b - 1) then (p : Int) - 2 ^ b else p
  | .bi => p - bias
  | .nb => nbValue p b

/-- `NBmin(b)` (41_signed_encoder.md R167); 3 divides 4^k - 1. -/
def nbMin (b : Nat) : Int := -2 * ((4 ^ (b / 2) - 1) / 3)

/-- `NBmax(b)` (41_signed_encoder.md R167); ⌈b/2⌉ is (b + 1) / 2. -/
def nbMax (b : Nat) : Int := (4 ^ ((b + 1) / 2) - 1) / 3

/-- The least value of a representation's range at b ≥ 1 (41_signed_encoder.md R162 to R169). -/
def rangeMin (rep : Rep) (b : Nat) (bias : Int) : Int :=
  match rep with
  | .sm => -(2 ^ (b - 1) - 1)
  | .oc => -(2 ^ (b - 1) - 1)
  | .tc => -2 ^ (b - 1)
  | .bi => -bias
  | .nb => nbMin b

/-- The greatest value of a representation's range at b ≥ 1 (41_signed_encoder.md R162 to R169). -/
def rangeMax (rep : Rep) (b : Nat) (bias : Int) : Int :=
  match rep with
  | .sm => 2 ^ (b - 1) - 1
  | .oc => 2 ^ (b - 1) - 1
  | .tc => 2 ^ (b - 1) - 1
  | .bi => 2 ^ b - 1 - bias
  | .nb => nbMax b

/-- v is representable at width b ≥ 1 (00_scope.md R16, "representable range"). -/
abbrev Representable (rep : Rep) (v : Int) (b : Nat) (bias : Int) : Prop :=
  rangeMin rep b bias ≤ v ∧ v ≤ rangeMax rep b bias

/-- `M_b`, the bits at the odd positions below b (41_signed_encoder.md R168). -/
def oddMask (b : Nat) : Nat :=
  match b with
  | 0     => 0
  | b + 1 => oddMask b + (if b % 2 = 1 then 2 ^ b else 0)

/-- The closed form of the radix -2 pattern (41_signed_encoder.md R168, a non-normative cross-check). -/
def nbClosed (v : Int) (b : Nat) : Nat := ((v + oddMask b) % 2 ^ b).toNat ^^^ oddMask b

end Sys2Proof.Machine
end

