-- ==== Sys2Proof/Safety.lean ====
section
/-! DEFINITION. The terms in which claims speak of the machine: the state invariant, reachable states, the bit stream, the
causes of errors as the rules give them, and what a completed command leaves. Each is written from the rule it cites, not from
the definitions of the meanings. -/

namespace Sys2Proof.Machine

/-- The invariant `Inv` (10_state.md R47), with legal parameters. `dense` says that the listed addresses are exactly
0 .. OUT_LEN-1, in order: `OUT_LEN = len(OUT)`, and the memory is canonical. PCNT in [0, 7] is its type. -/
structure StateInv (s : State) : Prop where
  legal     : s.params.Legal
  dense     : s.out.map Prod.fst = List.range s.outLen
  lowBits   : s.pb.toNat % 2 ^ (8 - s.pcnt.toNat) = 0
  finalized : s.fin = true → s.pcnt = 0 ∧ s.pb = 0
  capacity  : ∀ c, s.params.bufCap = some c → s.outLen ≤ c

/-- The states a run can reach: a RESET of an instance with legal parameters, then steps (70_reset_and_hazards.md R252,
R261). -/
inductive Reachable : State → Prop where
  | start (p : Params) (q : List Interaction) : p.Legal → Reachable (State.afterReset p q)
  | step {s t : State} : Reachable s → step s = .next t → Reachable t

/-- The architectural state, all of it (10_state.md R30). -/
def State.arch (s : State) : Memory × Nat × Byte × BitVec 3 × Bool := (s.out, s.outLen, s.pb, s.pcnt, s.fin)

/-- The n low bits of p, most significant first (00_scope.md R11). -/
def msbBits (p n : Nat) : List Bool :=
  match n with
  | 0     => []
  | n + 1 => p.testBit n :: msbBits p n

/-- The bit stream: the bits of the sealed bytes in address order, each from bit 7 down, then the placed bits of PB from bit 7
down (10_state.md R36, 20_memory.md R61). -/
def State.stream (s : State) : List Bool :=
  s.out.flatMap (fun c => msbBits c.2.toNat 8) ++ (msbBits s.pb.toNat 8).take s.pcnt.toNat

/-- The output bytes of a run (70_reset_and_hazards.md R261). -/
def State.output (s : State) : List Byte := s.out.map Prod.snd

/-- The command's outcome is the error response with that code, and nothing else (00_scope.md R14). -/
def Raises (i : Instr) (s : State) (code : Status) : Prop :=
  exec i s = .next { s with replies := s.replies ++ [.response { status := code, trunc := false, result := 0 }] }

/-- From s to t, a write command placed the n low bits of p and answered with the response; and what it left alone
(40_accumulator.md R120, R122; 20_memory.md R68). The bytes stored are those at OUT_LEN .. OUT_LEN + SealCount(n) - 1. -/
structure Wrote (s t : State) (p n : Nat) (r : Response) : Prop where
  stream  : t.stream = s.stream ++ msbBits p n
  lowBits : t.pb.toNat % 2 ^ (8 - t.pcnt.toNat) = 0
  pcnt    : t.pcnt.toNat = (s.pcnt.toNat + n) % 8
  outLen  : t.outLen = s.outLen + sealCount n s
  dense   : t.out.map Prod.fst = List.range t.outLen
  bytes   : ∀ a, ¬ (s.outLen ≤ a ∧ a < s.outLen + sealCount n s) → Memory.read t.out a = Memory.read s.out a
  fin     : t.fin = s.fin
  replies : t.replies = s.replies ++ [.response r]
  params  : t.params = s.params
  pending : t.pending = s.pending

/-- k more bytes fit the output buffer: BUF_CAP is unbounded or OUT_LEN + k ≤ BUF_CAP (40_accumulator.md R123). -/
def HasRoom (k : Nat) (s : State) : Prop := ∀ c, s.params.bufCap = some c → s.outLen + k ≤ c

/-- The pattern p and the TRUNC bit t that the rule of a representation gives v at width b, in closed form: R161 for b = 0,
else R162, R163, R164, R165, or for radix -2 the digits that read back as v mod 2^b (R167, R190, R191). -/
def EncodesTo (rep : Rep) (v : Int) (b : Nat) (bias : Int) (p : Nat) (t : Bool) : Prop :=
  p < 2 ^ b ∧ (b = 0 → t = false) ∧
  (1 ≤ b →
    match rep with
    | .sm => (p : Int) = (if v < 0 then 2 ^ (b - 1) else 0) + |v| ∧ t = false
    | .oc => (p : Int) = (if 0 ≤ v then v else 2 ^ b - 1 - |v|) ∧ t = false
    | .tc => (p : Int) = v % 2 ^ b ∧ (t = true ↔ ¬ Representable .tc v b bias)
    | .bi => (p : Int) = (v + bias) % 2 ^ b ∧ (t = true ↔ ¬ Representable .bi v b bias)
    | .nb => (2 : Int) ^ b ∣ nbValue p b - v ∧ (t = true ↔ ¬ Representable .nb v b bias))

/-- The representations that refuse v at width b: SM and OC, b ≥ 1, |v| > 2^(b-1) - 1 (60_exceptions.md R226). -/
def Refuses (rep : Rep) (v : Int) (b : Nat) : Prop :=
  (rep = .sm ∨ rep = .oc) ∧ 1 ≤ b ∧ (2 : Int) ^ (b - 1) - 1 < |v|

/-- What a WSIG command i with tag rep, width n, value v and bias does, errors in their order, then the write
(41_signed_encoder.md R170). -/
def SignedWriteRule (i : Instr) (rep : Rep) (n : Nat) (v bias : Int) (s : State) : Prop :=
  (s.fin = true → Raises i s .errState) ∧
  (s.fin = false → s.params.w < n → Raises i s .errWidth) ∧
  (s.fin = false → n ≤ s.params.w → Refuses rep v n → Raises i s .errRange) ∧
  (s.fin = false → n ≤ s.params.w → ¬ Refuses rep v n → ¬ HasRoom (sealCount n s) s → Raises i s .errFull) ∧
  (s.fin = false → n ≤ s.params.w → ¬ Refuses rep v n → HasRoom (sealCount n s) s →
    ∃ t p tr, exec i s = .next t ∧ EncodesTo rep v n bias p tr ∧
      Wrote s t p n { status := .ok, trunc := tr, result := BitVec.ofNat 64 p })

/-- What an ENC command i with tag rep, width n, value v and bias does, in both lifecycle modes: errors in their order, then
the answer and no other change (41_signed_encoder.md R175). -/
def SignedEncodeRule (i : Instr) (rep : Rep) (n : Nat) (v bias : Int) (s : State) : Prop :=
  (s.params.w < n → Raises i s .errWidth) ∧
  (n ≤ s.params.w → Refuses rep v n → Raises i s .errRange) ∧
  (n ≤ s.params.w → ¬ Refuses rep v n →
    ∃ p tr, EncodesTo rep v n bias p tr ∧ exec i s =
      .next { s with replies := s.replies ++ [.response { status := .ok, trunc := tr, result := BitVec.ofNat 64 p }] })

/-- The command word of a command with a width field: its row's pattern with b at bits 14:8 (30_encoding.md R102). -/
def withBits (pattern : BitVec 16) (b : BitVec 7) : BitVec 16 := pattern ||| (b.setWidth 16 <<< 8)

/-- The fields OP, REP and BITS of a word as numbers (30_encoding.md R91). -/
abbrev opField (cw : BitVec 16) : Nat := cw.toNat % 16
abbrev repField (cw : BitVec 16) : Nat := cw.toNat / 16 % 8
abbrev bitsField (cw : BitVec 16) : Nat := cw.toNat / 256 % 128

/-- A word no row matches, in the words of 30_encoding.md R98. -/
abbrev illegalWord (cw : BitVec 16) : Prop :=
  (cw.toNat / 128 % 2 ≠ 0 ∨ cw.toNat / 32768 ≠ 0)                                         -- (a)
  ∨ (opField cw = 0 ∨ 7 ≤ opField cw)                                                     -- (b)
  ∨ ((opField cw = 1 ∨ opField cw = 2 ∨ opField cw = 3 ∨ opField cw = 6) ∧ repField cw ≠ 0) -- (c)
  ∨ ((opField cw = 4 ∨ opField cw = 5) ∧ 5 ≤ repField cw)                                 -- (d)
  ∨ ((opField cw = 1 ∨ opField cw = 2 ∨ opField cw = 6) ∧ bitsField cw ≠ 0)               -- (e)

end Sys2Proof.Machine

namespace Sys2Proof

open Machine

/-- The width field of a command that has one (30_encoding.md R94). -/
def Instr.width : Instr → Option Nat
  | .wuns b _ | .wsigSm b _ | .wsigOc b _ | .wsigTc b _ | .wsigBi b _ _ | .wsigNb b _ => some b.toNat
  | .encSm b _ | .encOc b _ | .encTc b _ | .encBi b _ _ | .encNb b _ => some b.toNat
  | .wbit _ | .abyte _ | .fin => none

/-- The write commands: WBIT, ABYTE, WUNS and every WSIG (60_exceptions.md R223). -/
def Instr.isWrite : Instr → Bool
  | .wbit _ | .abyte _ | .wuns _ _ | .wsigSm _ _ | .wsigOc _ _ | .wsigTc _ _ | .wsigBi _ _ _ | .wsigNb _ _ => true
  | .encSm _ _ | .encOc _ _ | .encTc _ _ | .encBi _ _ _ | .encNb _ _ | .fin => false

/-- DATA outside {0, 1} for WBIT, above 255 for ABYTE (60_exceptions.md R225). -/
def Instr.badValue (w : Nat) : Instr → Prop
  | .wbit d  => 1 < zextW w d
  | .abyte d => 255 < zextW w d
  | _        => False

/-- A sign-magnitude or ones' complement command with b ≥ 1 and |v| > 2^(b-1) - 1 (60_exceptions.md R226). -/
def Instr.outOfRange (w : Nat) : Instr → Prop
  | .wsigSm b d | .wsigOc b d | .encSm b d | .encOc b d =>
    1 ≤ b.toNat ∧ (2 : Int) ^ (b.toNat - 1) - 1 < |sextW w d|
  | _ => False

/-- The seal count of a command: SealCount(1) for WBIT, 1 for ABYTE, SealCount(b) for WUNS and WSIG, 1 for FIN with PCNT > 0
(60_exceptions.md R227). -/
def Instr.sealsIn (s : State) : Instr → Nat
  | .wbit _  => (s.pcnt.toNat + 1) / 8
  | .abyte _ => 1
  | .wuns b _ | .wsigSm b _ | .wsigOc b _ | .wsigTc b _ | .wsigBi b _ _ | .wsigNb b _ => (s.pcnt.toNat + b.toNat) / 8
  | .fin     => if 0 < s.pcnt.toNat then 1 else 0
  | .encSm _ _ | .encOc _ _ | .encTc _ _ | .encBi _ _ _ | .encNb _ _ => 0

end Sys2Proof

namespace Sys2Proof.Machine

/-- The cause of each error (60_exceptions.md R221 to R227); OK has none. -/
def Cause (c : Command) (s : State) : Status → Prop
  | .ok         => False
  | .errIllegal => illegalWord c.cw
  | .errState   => ∃ i, decode c = .ok i ∧ i.isWrite = true ∧ s.fin = true
  | .errWidth   => ∃ i n, decode c = .ok i ∧ i.width = some n ∧ s.params.w < n
  | .errValue   => ∃ i, decode c = .ok i ∧ i.badValue s.params.w
  | .errRange   => ∃ i, decode c = .ok i ∧ i.outOfRange s.params.w
  | .errFull    => ∃ i k, decode c = .ok i ∧ s.params.bufCap = some k ∧ k < s.outLen + i.sealsIn s

/-- The codes in the order of priority (60_exceptions.md R228). -/
def errorsByPriority : List Status := [.errIllegal, .errState, .errWidth, .errValue, .errRange, .errFull]

/-- The code is the first in the order of priority whose cause is there, or OK where none is (60_exceptions.md R228). -/
def FirstError (c : Command) (s : State) (code : Status) : Prop :=
  (code = .ok ∧ ∀ e ∈ errorsByPriority, ¬ Cause c s e)
  ∨ ∃ before after, errorsByPriority = before ++ code :: after ∧ Cause c s code ∧ ∀ e ∈ before, ¬ Cause c s e

/-- The interactions are commands with these words, and DATA a bit each: the WBITs of a sequence of bits (40_accumulator.md
R131). -/
def wbits (bits : List Bool) : List Interaction :=
  bits.map fun x => .command { cw := 0x0001, data := if x then 1 else 0, bias := 0 }

/-- The commands among the interactions of a run, and the responses among what the host got back, in order. -/
def commandsOf (q : List Interaction) : List Command := q.filterMap fun x => match x with | .command c => some c | _ => none
def responsesOf (q : List Reply) : List Response := q.filterMap fun x => match x with | .response r => some r | _ => none

/-- The last command of a list of interactions is a FIN that responded OK, t being the state after them: the run is complete
(70_reset_and_hazards.md R261). -/
def Complete (q : List Interaction) (t : State) : Prop :=
  (∃ c, (commandsOf q).getLast? = some c ∧ decode c = .ok .fin)
  ∧ ∃ r, (responsesOf t.replies).getLast? = some r ∧ r.status = .ok

/-- The bits a command that responded with r placed, most significant first: the bits placed of 20_memory.md R68, of the operand
for WBIT, ABYTE and WUNS, of the pattern that RESULT answers for WSIG (30_encoding.md R97); none after an error
(00_scope.md R14). -/
def bitsPlacedBy (w : Nat) (c : Command) (r : Response) : List Bool :=
  match r.status, decode c with
  | .ok, .ok i =>
    match i with
    | .wbit d       => msbBits (zextW w d) 1
    | .abyte d      => msbBits (zextW w d) 8
    | .wuns b d     => msbBits (zextW w d) b.toNat
    | .wsigSm b _   => msbBits r.result.toNat b.toNat
    | .wsigOc b _   => msbBits r.result.toNat b.toNat
    | .wsigTc b _   => msbBits r.result.toNat b.toNat
    | .wsigBi b _ _ => msbBits r.result.toNat b.toNat
    | .wsigNb b _   => msbBits r.result.toNat b.toNat
    | .encSm _ _ | .encOc _ _ | .encTc _ _ | .encBi _ _ _ | .encNb _ _ | .fin => []
  | _, _ => []

/-- The bits all the commands of a run placed, in the order they were issued, each with its own response ("responses are in
order", 60_exceptions.md R221). -/
def bitsPlaced (w : Nat) (q : List Interaction) (replies : List Reply) : List Bool :=
  ((commandsOf q).zip (responsesOf replies)).flatMap fun x => bitsPlacedBy w x.1 x.2

end Sys2Proof.Machine
end

