-- ==== Sys2Proof/Certificates/Slice0/Obligations.lean ====
section
/-! DEFINITION. The statements for the provers, from the numbered rules of spec/. -/

open Sys2Proof Sys2Proof.Machine

/- Reset, the host's ports, and the step -/

/-- 10_state.md R45: the reset values, for every instance, and so for `State.reset`. -/
def Obligations.ResetValuesOfEveryRegister : Prop :=
  (∀ (p : Params) (q : List Interaction), (State.afterReset p q).out = [] ∧ (State.afterReset p q).outLen = 0 ∧
    (State.afterReset p q).pb = 0x00 ∧ (State.afterReset p q).pcnt = 0 ∧ (State.afterReset p q).fin = false ∧
    statusWord (State.afterReset p q) = 0x0000) ∧
  State.reset.out = [] ∧ State.reset.outLen = 0 ∧ State.reset.pb = 0x00 ∧ State.reset.pcnt = 0 ∧
  State.reset.fin = false ∧ statusWord State.reset = 0x0000

/-- RESET sets every piece of state to its reset value and produces no response (70_reset_and_hazards.md R250). That the
parameters (R253) and the remaining interactions stay is the model's reading (assumption log 16). -/
def Obligations.ResetClearsEveryRegisterWithoutResponse : Prop :=
  ∀ (s : State) (rest : List Interaction), s.pending = .reset :: rest →
    step s = .next { s with out := [], outLen := 0, pb := 0x00, pcnt := 0, fin := false, pending := rest }

/-- 60_exceptions.md R239: between commands the block holds its state. -/
def Obligations.WithoutInteractionTheStateIsHeld : Prop :=
  ∀ s : State, s.pending = [] → step s = .next s

/-- The step runs the decoded instruction: `step` on a command is `exec` of what it decodes to, on the state without that
interaction; on the word of `withFetchWord` it is `exec` on the state itself. -/
def Obligations.StepRunsTheDecodedCommand : Prop :=
  (∀ (s : State) (c : Command) (rest : List Interaction) (i : Instr), s.pending = .command c :: rest →
    decode c = .ok i → step s = exec i { s with pending := rest }) ∧
  (∀ (s : State) (nbits w : Nat) (i : Instr), decodeTableWord nbits w = some i →
    step (s.withFetchWord nbits w) = exec i s)

/-- 30_encoding.md R98, 60_exceptions.md R222: an illegal word raises ERR_ILLEGAL in both modes, with no state change; a width
above W is not illegal and raises ERR_WIDTH. -/
def Obligations.IllegalWordsRaiseErrIllegal : Prop :=
  (∀ (s : State) (c : Command) (rest : List Interaction), s.pending = .command c :: rest → illegalWord c.cw →
    step s = .next { s with
      pending := rest
      replies := s.replies ++ [.response { status := .errIllegal, trunc := false, result := 0 }] }) ∧
  (∀ (s : State) (c : Command) (rest : List Interaction), s.pending = .command c :: rest → ¬ illegalWord c.cw →
    s.params.w < bitsField c.cw → (opField c.cw = 5 ∨ s.fin = false) →
    step s = .next { s with
      pending := rest
      replies := s.replies ++ [.response { status := .errWidth, trunc := false, result := 0 }] })

/-- 20_memory.md R66: the read port. -/
def Obligations.ReadPortAnswersTheSealedByte : Prop :=
  ∀ (s : State) (i : Nat) (rest : List Interaction), StateInv s → s.pending = .readByte i :: rest →
    (i < s.outLen → ∃ x, Memory.read s.out i = some x ∧
      step s = .next { s with pending := rest, replies := s.replies ++ [.byte true x] }) ∧
    (s.outLen ≤ i → step s = .next { s with pending := rest, replies := s.replies ++ [.byte false 0x00] })

/-- 10_state.md R41: the STATUS word, its fields, no side effect; OUT_LEN on its own port. -/
def Obligations.StatusPortAnswersTheCursor : Prop :=
  (∀ (s : State) (rest : List Interaction), s.pending = .readStatus :: rest →
    ∃ w : BitVec 16, step s = .next { s with pending := rest, replies := s.replies ++ [.statusWord w] } ∧
      w.extractLsb' 0 3 = s.pcnt ∧ w.getLsbD 3 = s.fin ∧ w.extractLsb' 4 4 = 0 ∧ w.extractLsb' 8 8 = s.pb) ∧
  (∀ (s : State) (rest : List Interaction), s.pending = .readOutLen :: rest →
    step s = .next { s with pending := rest, replies := s.replies ++ [.outLen s.outLen] }) ∧
  statusWord State.reset = 0x0000

/-- Every step has a next state, and every command gets exactly one response (30_encoding.md R90, R97;
93_implementation_defined.md: "No behaviour in this spec is `stuck`"). -/
def Obligations.EveryStepAnswersAndEveryCommandOnce : Prop :=
  (∀ s : State, ∃ t, step s = .next t) ∧
  (∀ (s : State) (c : Command) (rest : List Interaction), s.pending = .command c :: rest →
    ∃ t r, step s = .next t ∧ t.pending = rest ∧ t.params = s.params ∧ t.replies = s.replies ++ [.response r])

/- Encoding -/

/-- 30_encoding.md R101: every word is exactly one row of the table, which is the row of what it decodes to, or illegal. -/
def Obligations.EveryWordIsOneRowOrIllegal : Prop :=
  opcodeRows.map (fun r => (r.mnemonic, r.pattern.toNat, r.mask.toNat)) =
    [("WBIT", 0x0001, 0xFFFF), ("ABYTE", 0x0002, 0xFFFF), ("WUNS", 0x0003, 0x80FF), ("WSIG.SM", 0x0004, 0x80FF),
     ("WSIG.OC", 0x0014, 0x80FF), ("WSIG.TC", 0x0024, 0x80FF), ("WSIG.BI", 0x0034, 0x80FF), ("WSIG.NB", 0x0044, 0x80FF),
     ("ENC.SM", 0x0005, 0x80FF), ("ENC.OC", 0x0015, 0x80FF), ("ENC.TC", 0x0025, 0x80FF), ("ENC.BI", 0x0035, 0x80FF),
     ("ENC.NB", 0x0045, 0x80FF), ("FIN", 0x0006, 0xFFFF)] ∧
  ∀ c : Command,
    (illegalWord c.cw → opcodeRows.filter (fun r => r.fits c.cw) = [] ∧ ∃ e, decode c = .error e) ∧
    (¬ illegalWord c.cw → ∃ i, decode c = .ok i ∧ opcodeRows.filter (fun r => r.fits c.cw) = [i.row])

/-- Words written out from the spec's encodings and vectors, one for every family and tag (95_test_vectors.md). -/
def Obligations.SpecWordsDecodeToTheirCommands : Prop :=
  decode { cw := 0x0001, data := 0x1, bias := 0 } = .ok (.wbit 1) ∧
  decode { cw := 0x0002, data := 0xA5, bias := 0 } = .ok (.abyte 0xA5) ∧
  decode { cw := 0x4003, data := 0x0123456789ABCDEF, bias := 0 } = .ok (.wuns 64 0x0123456789ABCDEF) ∧
  decode { cw := 0x0404, data := 0xFFFFFFFFFFFFFFFB, bias := 0 } = .ok (.wsigSm 4 (-5)) ∧
  decode { cw := 0x0D34, data := 0xFFFFFFFFFFFFFF85, bias := 0x7F } = .ok (.wsigBi 13 (-123) 127) ∧
  decode { cw := 0x0444, data := 0x5, bias := 0 } = .ok (.wsigNb 4 5) ∧
  decode { cw := 0x4015, data := 0xFFFFFFFFFFFFFFFF, bias := 0 } = .ok (.encOc 64 (-1)) ∧
  decode { cw := 0x7F25, data := 0, bias := 0 } = .ok (.encTc 127 0) ∧
  decode { cw := 0x0006, data := 0x1234, bias := 9 } = .ok .fin ∧
  decode { cw := 0x0074, data := 0, bias := 0 } = .error .reservedRep

/-- Decode and encode agree: every instruction, with every operand value. -/
def Obligations.DecodeOfEncodeIsTheInstruction : Prop :=
  ∀ i : Instr, decode (encode i) = .ok i

/-- Encode and decode agree the other way: an accepted transaction is the encoding of what it decodes to, on every bus that
command reads. -/
def Obligations.AcceptedWordIsTheEncodingOfItsCommand : Prop :=
  ∀ (c : Command) (i : Instr), decode c = .ok i →
    (encode i).cw = c.cw ∧ (i ≠ .fin → (encode i).data = c.data) ∧
    ((∃ b d k, i = .wsigBi b d k ∨ i = .encBi b d k) → (encode i).bias = c.bias)

/-- 30_encoding.md R95, R96: only WSIG.BI and ENC.BI depend on BIAS, and FIN depends on no bus. -/
def Obligations.IgnoredBusesHaveNoEffect : Prop :=
  (∀ (s : State) (rest : List Interaction) (cw : BitVec 16) (d k k' : Word),
    (∀ b : BitVec 7, cw ≠ withBits 0x0034 b ∧ cw ≠ withBits 0x0035 b) →
    step { s with pending := .command { cw := cw, data := d, bias := k } :: rest } =
      step { s with pending := .command { cw := cw, data := d, bias := k' } :: rest }) ∧
  (∀ (s : State) (rest : List Interaction) (d d' k k' : Word),
    step { s with pending := .command { cw := 0x0006, data := d, bias := k } :: rest } =
      step { s with pending := .command { cw := 0x0006, data := d', bias := k' } :: rest })

/-- 30_encoding.md R102: the transaction of every line of the assembly syntax, and what the assembler refuses: a value, a width,
a bias or a raw word out of bounds. The bound of a literal, -2^(W-1) .. 2^W - 1, and that of a raw word are the model's reading of
"outside the bus width" (assumption log 17). -/
def Obligations.AssemblerEmitsTheTabledTransaction : Prop :=
  ∀ w : Nat, 8 ≤ w → w ≤ 64 →
    (∀ x : Int, -2 ^ (w - 1) ≤ x → x ≤ 2 ^ w - 1 → ∃ d : Word, (d.toNat : Int) = x % 2 ^ w ∧
      assemble w (.wbit x) = some { cw := 0x0001, data := d, bias := 0 } ∧
      assemble w (.abyte x) = some { cw := 0x0002, data := d, bias := 0 } ∧
      ∀ b : BitVec 7,
        assemble w (.wuns x b.toNat) = some { cw := withBits 0x0003 b, data := d, bias := 0 } ∧
        assemble w (.wsig .sm x b.toNat 0) = some { cw := withBits 0x0004 b, data := d, bias := 0 } ∧
        assemble w (.wsig .oc x b.toNat 0) = some { cw := withBits 0x0014 b, data := d, bias := 0 } ∧
        assemble w (.wsig .tc x b.toNat 0) = some { cw := withBits 0x0024 b, data := d, bias := 0 } ∧
        assemble w (.wsig .nb x b.toNat 0) = some { cw := withBits 0x0044 b, data := d, bias := 0 } ∧
        assemble w (.enc .sm x b.toNat 0) = some { cw := withBits 0x0005 b, data := d, bias := 0 } ∧
        assemble w (.enc .oc x b.toNat 0) = some { cw := withBits 0x0015 b, data := d, bias := 0 } ∧
        assemble w (.enc .tc x b.toNat 0) = some { cw := withBits 0x0025 b, data := d, bias := 0 } ∧
        assemble w (.enc .nb x b.toNat 0) = some { cw := withBits 0x0045 b, data := d, bias := 0 } ∧
        ∀ y : Int, -2 ^ (w - 1) ≤ y → y ≤ 2 ^ w - 1 → ∃ k : Word, (k.toNat : Int) = y % 2 ^ w ∧
          assemble w (.wsig .bi x b.toNat y) = some { cw := withBits 0x0034 b, data := d, bias := k } ∧
          assemble w (.enc .bi x b.toNat y) = some { cw := withBits 0x0035 b, data := d, bias := k }) ∧
    assemble w .fin = some { cw := 0x0006, data := 0, bias := 0 } ∧
    (∀ cw : BitVec 16, assemble w (.word cw.toNat) = some { cw := cw, data := 0, bias := 0 }) ∧
    (∀ (x : Int) (b : Int), x < -2 ^ (w - 1) ∨ 2 ^ w - 1 < x →
      assemble w (.wbit x) = none ∧ assemble w (.abyte x) = none ∧ assemble w (.wuns x b) = none ∧
      ∀ (rep : Rep) (y : Int), assemble w (.wsig rep x b y) = none ∧ assemble w (.enc rep x b y) = none) ∧
    (∀ x b : Int, b < 0 ∨ 127 < b → assemble w (.wuns x b) = none ∧
      ∀ (rep : Rep) (y : Int), assemble w (.wsig rep x b y) = none ∧ assemble w (.enc rep x b y) = none) ∧
    (∀ x b y : Int, y < -2 ^ (w - 1) ∨ 2 ^ w - 1 < y →
      assemble w (.wsig .bi x b y) = none ∧ assemble w (.enc .bi x b y) = none) ∧
    (∀ cw : Int, cw < 0 ∨ 0xFFFF < cw → assemble w (.word cw) = none)

/- The invariant, the lifecycle, the output memory -/

/-- 10_state.md R47: `Inv` holds in every state reachable from RESET, and every command preserves it. -/
def Obligations.EveryReachableStateMeetsTheInvariant : Prop :=
  (∀ s : State, Reachable s → StateInv s) ∧
  (∀ (i : Instr) (s t : State), StateInv s → exec i s = .next t → StateInv t)

/-- Every step, of any interaction, keeps the invariant and the canonical form of the memory. -/
def Obligations.EveryStepKeepsTheInvariant : Prop :=
  ∀ s t : State, StateInv s → step s = .next t → StateInv t ∧ Memory.wf t.out = true ∧ Memory.wf s.out = true

/-- The state after RESET meets the invariant, with every legal choice of the parameters. -/
def Obligations.ResetMeetsTheInvariant : Prop :=
  StateInv State.reset ∧ ∀ (p : Params) (q : List Interaction), p.Legal → StateInv (State.afterReset p q)

/-- 20_memory.md R73: a sealed byte keeps its value until RESET, over any number of steps, and the read port returns it. -/
def Obligations.SealedBytesStayUntilReset : Prop :=
  ∀ (n : Nat) (s t : State), StateInv s → (∀ x ∈ s.pending.take n, x ≠ .reset) →
    Host.Core.run Sys2Proof.core n s = .next t →
    ∀ i, i < s.outLen → ∃ x, memRead i s = (true, x) ∧ memRead i t = (true, x)

/-- 10_state.md R40: while FIN = 1, PCNT = 0 and PB = 0, and nothing but RESET changes the architectural state. -/
def Obligations.FinalizedStateIsFrozenUntilReset : Prop :=
  ∀ s : State, Reachable s → s.fin = true → s.pcnt = 0 ∧ s.pb = 0 ∧
    ∀ t, step s = .next t → (∀ rest, s.pending ≠ .reset :: rest) → t.arch = s.arch

/-- 10_state.md R39: FIN is 1 after a FIN command has completed and no write is accepted then; only the FIN command, completing
OK, sets it, and only RESET clears it. -/
def Obligations.OnlyFinSetsAndOnlyResetClearsFin : Prop :=
  ∀ s t : State, step s = .next t →
    (s.fin = false → t.fin = true → ∃ c rest r, s.pending = .command c :: rest ∧ decode c = .ok .fin ∧
      t.replies = s.replies ++ [.response r] ∧ r.status = .ok) ∧
    (s.fin = true → t.fin = false → ∃ rest, s.pending = .reset :: rest) ∧
    (∀ c rest i r, s.pending = .command c :: rest → decode c = .ok i → t.replies = s.replies ++ [.response r] →
      (i = .fin → r.status = .ok → t.fin = true) ∧
      (i.isWrite = true → (r.status = .errState ↔ s.fin = true)))

/-- 70_reset_and_hazards.md R261, 40_accumulator.md R129: the output of a complete run, without a RESET after its first, is every
bit its commands placed, in order, then 0 bits up to the next whole byte; no bit is left pending. -/
def Obligations.CompleteRunOutputsEveryBitPlaced : Prop :=
  ∀ (p : Params) (q : List Interaction) (t : State), p.Legal → (∀ x ∈ q, x ≠ .reset) →
    Host.Core.run Sys2Proof.core q.length (State.afterReset p q) = .next t → Complete q t →
    t.fin = true ∧ t.pcnt = 0 ∧ t.pb = 0 ∧
    (t.output.flatMap fun x => msbBits x.toNat 8) =
      bitsPlaced p.w q t.replies ++ List.replicate ((8 - (bitsPlaced p.w q t.replies).length % 8) % 8) false

/- Errors -/

/-- 60_exceptions.md R222 to R228: the status of a command is the first error in the order of priority whose cause is there,
or OK where none is; with an error no bit is placed. -/
def Obligations.TheFirstErrorInPriorityIsReported : Prop :=
  ∀ (s : State) (c : Command) (rest : List Interaction), StateInv s → s.pending = .command c :: rest →
    ∃ t r, step s = .next t ∧ t.replies = s.replies ++ [.response r] ∧ FirstError c s r.status ∧
      (r.status ≠ .ok → t = { s with pending := rest, replies := s.replies ++ [.response r] })

/-- 00_scope.md R14, 60_exceptions.md R220: an error response carries TRUNC = 0 and RESULT = 0, and every register and the
output buffer keep their values. -/
def Obligations.AnErrorChangesNoState : Prop :=
  ∀ (s t : State) (c : Command) (rest : List Interaction) (r : Response), s.pending = .command c :: rest →
    step s = .next t → t.replies = s.replies ++ [.response r] → r.status ≠ .ok →
    r.trunc = false ∧ r.result = 0 ∧ t.arch = s.arch ∧ t.params = s.params ∧ t.pending = rest

/-- 60_exceptions.md R229: TRUNC = 1 comes with OK, and only from WUNS with value ≥ 2^b and from TC, BI or NB out of range. -/
def Obligations.TruncComesOnlyFromATruncation : Prop :=
  ∀ (s t : State) (c : Command) (rest : List Interaction) (r : Response), s.pending = .command c :: rest →
    step s = .next t → t.replies = s.replies ++ [.response r] → r.trunc = true →
    r.status = .ok ∧ ∃ i, decode c = .ok i ∧
      ((∃ b d, i = .wuns b d ∧ 2 ^ b.toNat ≤ zextW s.params.w d) ∨
       (∃ b d, (i = .wsigTc b d ∨ i = .encTc b d) ∧ 1 ≤ b.toNat ∧
         ¬ Representable .tc (sextW s.params.w d) b.toNat 0) ∨
       (∃ b d k, (i = .wsigBi b d k ∨ i = .encBi b d k) ∧ 1 ≤ b.toNat ∧
         ¬ Representable .bi (sextW s.params.w d) b.toNat (sextW s.params.w k)) ∨
       (∃ b d, (i = .wsigNb b d ∨ i = .encNb b d) ∧ 1 ≤ b.toNat ∧
         ¬ Representable .nb (sextW s.params.w d) b.toNat 0))

/-- 00_scope.md R7: with BUF_CAP unbounded no command answers ERR_FULL. -/
def Obligations.UnboundedBufferNeverRaisesErrFull : Prop :=
  ∀ (s t : State) (c : Command) (rest : List Interaction) (r : Response), s.params.bufCap = none →
    s.pending = .command c :: rest → step s = .next t → t.replies = s.replies ++ [.response r] → r.status ≠ .errFull

/-- 30_encoding.md R97: RESULT is a W-bit word; WBIT and ABYTE answer 0 with TRUNC = 0; the numbers of the codes are those of
60_exceptions.md R221. -/
def Obligations.ResponsesFitTheirBuses : Prop :=
  (∀ (s t : State) (c : Command) (rest : List Interaction) (r : Response), s.params.Legal →
    s.pending = .command c :: rest → step s = .next t → t.replies = s.replies ++ [.response r] →
    r.result.toNat < 2 ^ s.params.w ∧
    (∀ d, decode c = .ok (.wbit d) ∨ decode c = .ok (.abyte d) → r.trunc = false ∧ r.result = 0) ∧
    r.status.code.toNat ≤ 6) ∧
  [Status.ok, .errIllegal, .errState, .errWidth, .errValue, .errRange, .errFull].map (fun e => e.code.toNat) =
    [0, 1, 2, 3, 4, 5, 6]

/- Placement -/

/-- 40_accumulator.md R121: the closed form is equivalent to the bit-by-bit rule, wherever R37 and R120's precondition hold. -/
def Obligations.PutBitsEqualsItsClosedForm : Prop :=
  ∀ (s : State) (p n : Nat), s.pb.toNat % 2 ^ (8 - s.pcnt.toNat) = 0 → p < 2 ^ n →
    putBits p n s = putBitsBulk p n s

/-- 40_accumulator.md R122: the bytes sealed by n bits, and the bound for one command. -/
def Obligations.SealCountCountsTheBytesSealed : Prop :=
  (∀ (s : State) (p n : Nat), (putBits p n s).outLen = s.outLen + (s.pcnt.toNat + n) / 8 ∧
    sealCount n s = (s.pcnt.toNat + n) / 8) ∧
  (∀ (s : State) (n : Nat), s.params.Legal → n ≤ s.params.w →
    sealCount n s ≤ (7 + s.params.w) / 8 ∧ (7 + s.params.w) / 8 ≤ 8)

/-- 20_memory.md R60: the first bit placed after a seal becomes bit 7 of the sealed byte, the eighth bit 0. -/
def Obligations.BitsFillAByteFromBitSevenDown : Prop :=
  ∀ (s : State) (bits : List Bool), s.pcnt = 0 → s.pb = 0 → bits.length = 8 →
    ∃ x, Memory.read (bits.foldl (fun u b => placeBit b u) s).out s.outLen = some x ∧
      ∀ q, q < 8 → bits[q]? = some (x.getLsbD (7 - q))

/-- 20_memory.md R61: the output is one bit stream in the order of placement, a field goes in most significant bit first, and an
aligned field of 8k bits is k bytes, most significant first. -/
def Obligations.AlignedFieldsAreBigEndian : Prop :=
  (∀ s : State, StateInv s → ∀ j, j < 8 * s.outLen →
    s.stream[j]? = (Memory.read s.out (j / 8)).map fun x => x.getLsbD (7 - j % 8)) ∧
  (∀ (s : State) (bit : Bool) (x : Byte) (p n : Nat), StateInv s →
    (placeBit bit s).stream = s.stream ++ [bit] ∧ (sealByte x s).out = s.out ++ [(s.outLen, x)] ∧
    (putBits p n s).stream = s.stream ++ msbBits p n) ∧
  (∀ (s : State) (b : BitVec 7) (data : Word) (k : Nat), StateInv s → s.fin = false → s.pcnt = 0 → b.toNat = 8 * k →
    b.toNat ≤ s.params.w → HasRoom k s →
    ∃ t, exec (.wuns b data) s = .next t ∧ t.outLen = s.outLen + k ∧
      ∀ j, j < k → Memory.read t.out (s.outLen + j) =
        some (BitVec.ofNat 8 (zextW s.params.w data / 2 ^ (8 * (k - 1 - j)))))

/- The commands: encoding, errors in order, effect and what stays, and the rule's example -/

/-- 40_accumulator.md R124. -/
def Obligations.WbitPlacesOneBit : Prop :=
  (∀ d k : Word, decode { cw := 0x0001, data := d, bias := k } = .ok (.wbit d)) ∧
  (∀ (s : State) (d : Word), StateInv s →
    (s.fin = true → Raises (.wbit d) s .errState) ∧
    (s.fin = false → 1 < zextW s.params.w d → Raises (.wbit d) s .errValue) ∧
    (s.fin = false → zextW s.params.w d ≤ 1 → ¬ HasRoom (sealCount 1 s) s → Raises (.wbit d) s .errFull) ∧
    (s.fin = false → zextW s.params.w d ≤ 1 → HasRoom (sealCount 1 s) s →
      ∃ t, exec (.wbit d) s = .next t ∧
        Wrote s t (zextW s.params.w d) 1 { status := .ok, trunc := false, result := 0 })) ∧
  exec (.wbit 1) State.reset = .next { State.reset with
    pb := 0x80, pcnt := 1, replies := [.response { status := .ok, trunc := false, result := 0 }] }

/-- 40_accumulator.md R125. -/
def Obligations.AbyteAppendsOneByte : Prop :=
  (∀ d k : Word, decode { cw := 0x0002, data := d, bias := k } = .ok (.abyte d)) ∧
  (∀ (s : State) (d : Word), StateInv s →
    (s.fin = true → Raises (.abyte d) s .errState) ∧
    (s.fin = false → 255 < zextW s.params.w d → Raises (.abyte d) s .errValue) ∧
    (s.fin = false → zextW s.params.w d ≤ 255 → ¬ HasRoom 1 s → Raises (.abyte d) s .errFull) ∧
    (s.fin = false → zextW s.params.w d ≤ 255 → HasRoom 1 s →
      ∃ t, exec (.abyte d) s = .next t ∧
        Wrote s t (zextW s.params.w d) 8 { status := .ok, trunc := false, result := 0 } ∧ t.pcnt = s.pcnt)) ∧
  exec (.abyte 0xFF) { State.reset with pb := 0x80, pcnt := 1 } = .next { State.reset with
    pb := 0x80, pcnt := 1, out := [(0, 0xFF)], outLen := 1,
    replies := [.response { status := .ok, trunc := false, result := 0 }] }

/-- 40_accumulator.md R127. -/
def Obligations.WunsWritesTheValueModuloItsWidth : Prop :=
  (∀ (b : BitVec 7) (d k : Word), decode { cw := withBits 0x0003 b, data := d, bias := k } = .ok (.wuns b d)) ∧
  (∀ (s : State) (b : BitVec 7) (d : Word), StateInv s →
    (s.fin = true → Raises (.wuns b d) s .errState) ∧
    (s.fin = false → s.params.w < b.toNat → Raises (.wuns b d) s .errWidth) ∧
    (s.fin = false → b.toNat ≤ s.params.w → ¬ HasRoom (sealCount b.toNat s) s → Raises (.wuns b d) s .errFull) ∧
    (s.fin = false → b.toNat ≤ s.params.w → HasRoom (sealCount b.toNat s) s →
      ∃ t, exec (.wuns b d) s = .next t ∧
        Wrote s t (zextW s.params.w d % 2 ^ b.toNat) b.toNat
          { status := .ok, trunc := decide (2 ^ b.toNat ≤ zextW s.params.w d),
            result := BitVec.ofNat 64 (zextW s.params.w d % 2 ^ b.toNat) })) ∧
  exec (.wuns 7 55) State.reset = .next { State.reset with
    pb := 0x6E, pcnt := 7, replies := [.response { status := .ok, trunc := false, result := 55 }] }

/-- 40_accumulator.md R129, R130. -/
def Obligations.FinPadsSealsAndCloses : Prop :=
  (∀ d k : Word, decode { cw := 0x0006, data := d, bias := k } = .ok .fin) ∧
  (∀ (s : State) (i : Instr), s.fin = true → i.isWrite = true → Raises i s .errState) ∧
  (∀ s : State, StateInv s →
    (s.fin = true → exec .fin s = .next { s with replies := s.replies ++
      [.response { status := .ok, trunc := false, result := BitVec.ofNat 64 (s.outLen % 2 ^ s.params.w) }] }) ∧
    (s.fin = false → s.pcnt ≠ 0 → ¬ HasRoom 1 s → Raises .fin s .errFull) ∧
    (s.fin = false → (s.pcnt ≠ 0 → HasRoom 1 s) →
      ∃ t, exec .fin s = .next t ∧ t.fin = true ∧ t.pcnt = 0 ∧ t.pb = 0 ∧
        t.outLen = s.outLen + (if s.pcnt = 0 then 0 else 1) ∧
        t.out.map Prod.fst = List.range t.outLen ∧
        t.stream = s.stream ++ List.replicate ((8 - s.pcnt.toNat) % 8) false ∧
        (∀ a, a ≠ s.outLen ∨ s.pcnt = 0 → Memory.read t.out a = Memory.read s.out a) ∧
        (s.pcnt ≠ 0 → Memory.read t.out s.outLen = some s.pb) ∧
        t.params = s.params ∧ t.pending = s.pending ∧
        t.replies = s.replies ++
          [.response { status := .ok, trunc := false, result := BitVec.ofNat 64 (t.outLen % 2 ^ s.params.w) }])) ∧
  exec .fin { State.reset with pb := 0xA0, pcnt := 3 } = .next { State.reset with
    out := [(0, 0xA0)], outLen := 1, fin := true,
    replies := [.response { status := .ok, trunc := false, result := 1 }] }

/-- 41_signed_encoder.md R170. -/
def Obligations.WsigSmWritesSignMagnitude : Prop :=
  (∀ (b : BitVec 7) (d k : Word), decode { cw := withBits 0x0004 b, data := d, bias := k } = .ok (.wsigSm b d)) ∧
  (∀ (s : State) (b : BitVec 7) (d : Word), StateInv s →
    SignedWriteRule (.wsigSm b d) .sm b.toNat (sextW s.params.w d) 0 s) ∧
  exec (.wsigSm 4 (-5)) State.reset = .next { State.reset with
    pb := 0xD0, pcnt := 4, replies := [.response { status := .ok, trunc := false, result := 0xD }] }

/-- 41_signed_encoder.md R171. -/
def Obligations.WsigOcWritesOnesComplement : Prop :=
  (∀ (b : BitVec 7) (d k : Word), decode { cw := withBits 0x0014 b, data := d, bias := k } = .ok (.wsigOc b d)) ∧
  (∀ (s : State) (b : BitVec 7) (d : Word), StateInv s →
    SignedWriteRule (.wsigOc b d) .oc b.toNat (sextW s.params.w d) 0 s) ∧
  exec (.wsigOc 4 (-5)) State.reset = .next { State.reset with
    pb := 0xA0, pcnt := 4, replies := [.response { status := .ok, trunc := false, result := 0xA }] }

/-- 41_signed_encoder.md R172. -/
def Obligations.WsigTcWritesTwosComplement : Prop :=
  (∀ (b : BitVec 7) (d k : Word), decode { cw := withBits 0x0024 b, data := d, bias := k } = .ok (.wsigTc b d)) ∧
  (∀ (s : State) (b : BitVec 7) (d : Word), StateInv s →
    SignedWriteRule (.wsigTc b d) .tc b.toNat (sextW s.params.w d) 0 s) ∧
  exec (.wsigTc 3 3) State.reset = .next { State.reset with
    pb := 0x60, pcnt := 3, replies := [.response { status := .ok, trunc := false, result := 0x3 }] } ∧
  exec (.wsigTc 3 4) State.reset = .next { State.reset with
    pb := 0x80, pcnt := 3, replies := [.response { status := .ok, trunc := true, result := 0x4 }] }

/-- 41_signed_encoder.md R173. -/
def Obligations.WsigBiWritesTheBiasedSum : Prop :=
  (∀ (b : BitVec 7) (d k : Word), decode { cw := withBits 0x0034 b, data := d, bias := k } = .ok (.wsigBi b d k)) ∧
  (∀ (s : State) (b : BitVec 7) (d k : Word), StateInv s →
    SignedWriteRule (.wsigBi b d k) .bi b.toNat (sextW s.params.w d) (sextW s.params.w k) s) ∧
  exec (.wsigBi 13 (-123) 127) State.reset = .next { State.reset with
    out := [(0, 0x00)], outLen := 1, pb := 0x20, pcnt := 5,
    replies := [.response { status := .ok, trunc := false, result := 0x4 }] }

/-- 41_signed_encoder.md R174. -/
def Obligations.WsigNbWritesRadixMinusTwo : Prop :=
  (∀ (b : BitVec 7) (d k : Word), decode { cw := withBits 0x0044 b, data := d, bias := k } = .ok (.wsigNb b d)) ∧
  (∀ (s : State) (b : BitVec 7) (d : Word), StateInv s →
    SignedWriteRule (.wsigNb b d) .nb b.toNat (sextW s.params.w d) 0 s) ∧
  exec (.wsigNb 4 5) State.reset = .next { State.reset with
    pb := 0x50, pcnt := 4, replies := [.response { status := .ok, trunc := false, result := 0x5 }] }

/-- 41_signed_encoder.md R176. -/
def Obligations.EncSmAnswersSignMagnitude : Prop :=
  (∀ (b : BitVec 7) (d k : Word), decode { cw := withBits 0x0005 b, data := d, bias := k } = .ok (.encSm b d)) ∧
  (∀ (s : State) (b : BitVec 7) (d : Word), s.params.Legal →
    SignedEncodeRule (.encSm b d) .sm b.toNat (sextW s.params.w d) 0 s) ∧
  exec (.encSm 64 (-1)) State.reset = .next { State.reset with
    replies := [.response { status := .ok, trunc := false, result := 0x8000000000000001 }] }

/-- 41_signed_encoder.md R177. -/
def Obligations.EncOcAnswersOnesComplement : Prop :=
  (∀ (b : BitVec 7) (d k : Word), decode { cw := withBits 0x0015 b, data := d, bias := k } = .ok (.encOc b d)) ∧
  (∀ (s : State) (b : BitVec 7) (d : Word), s.params.Legal →
    SignedEncodeRule (.encOc b d) .oc b.toNat (sextW s.params.w d) 0 s) ∧
  exec (.encOc 64 (-1)) State.reset = .next { State.reset with
    replies := [.response { status := .ok, trunc := false, result := 0xFFFFFFFFFFFFFFFE }] }

/-- 41_signed_encoder.md R178. -/
def Obligations.EncTcAnswersTwosComplement : Prop :=
  (∀ (b : BitVec 7) (d k : Word), decode { cw := withBits 0x0025 b, data := d, bias := k } = .ok (.encTc b d)) ∧
  (∀ (s : State) (b : BitVec 7) (d : Word), s.params.Legal →
    SignedEncodeRule (.encTc b d) .tc b.toNat (sextW s.params.w d) 0 s) ∧
  exec (.encTc 4 (-1)) State.reset = .next { State.reset with
    replies := [.response { status := .ok, trunc := false, result := 0xF }] }

/-- 41_signed_encoder.md R179. -/
def Obligations.EncBiAnswersTheBiasedSum : Prop :=
  (∀ (b : BitVec 7) (d k : Word), decode { cw := withBits 0x0035 b, data := d, bias := k } = .ok (.encBi b d k)) ∧
  (∀ (s : State) (b : BitVec 7) (d k : Word), s.params.Legal →
    SignedEncodeRule (.encBi b d k) .bi b.toNat (sextW s.params.w d) (sextW s.params.w k) s) ∧
  exec (.encBi 8 129 127) State.reset = .next { State.reset with
    replies := [.response { status := .ok, trunc := true, result := 0x00 }] }

/-- 41_signed_encoder.md R180. -/
def Obligations.EncNbAnswersRadixMinusTwo : Prop :=
  (∀ (b : BitVec 7) (d k : Word), decode { cw := withBits 0x0045 b, data := d, bias := k } = .ok (.encNb b d)) ∧
  (∀ (s : State) (b : BitVec 7) (d : Word), s.params.Legal →
    SignedEncodeRule (.encNb b d) .nb b.toNat (sextW s.params.w d) 0 s) ∧
  exec (.encNb 4 (-10)) State.reset = .next { State.reset with
    replies := [.response { status := .ok, trunc := false, result := 0xA }] }

/-- 10_state.md R46: the encoder's answer depends on the operands alone, whatever the architectural state. -/
def Obligations.EncoderAnswerDependsOnOperandsOnly : Prop :=
  ∀ (i : Instr) (s u : State), i.isWrite = false → i ≠ .fin → s.params = u.params →
    ∃ r, exec i s = .next { s with replies := s.replies ++ [r] } ∧ exec i u = .next { u with replies := u.replies ++ [r] }

/- Laws of the accumulator -/

/-- 40_accumulator.md R126: at an aligned cursor, `Seal(x)` and `PutBits(x, 8)` leave the same state, and ABYTE does what the
eight WBITs of its bits do. -/
def Obligations.AbyteEqualsItsEightWbits : Prop :=
  (∀ (s : State) (x : Byte), StateInv s → s.pcnt = 0 →
    sealByte x s = putBits x.toNat 8 s ∧
    sealByte x s = { s with out := s.out ++ [(s.outLen, x)], outLen := s.outLen + 1, pb := 0, pcnt := 0 }) ∧
  (∀ (s : State) (d : Word), StateInv s → s.fin = false → zextW s.params.w d ≤ 255 → HasRoom 1 s →
    ∃ t u, exec (.abyte d) s = .next t ∧
      Host.Core.run Sys2Proof.core 8 { s with pending := wbits (msbBits (zextW s.params.w d) 8) } = .next u ∧
      t.arch = u.arch)

/-- 40_accumulator.md R131: 8k WBITs from RESET and a FIN give k bytes with those bits, most significant first. -/
def Obligations.WbitsThenFinGiveTheirBytes : Prop :=
  ∀ (p : Params) (bits : List Bool) (k : Nat), p.Legal → bits.length = 8 * k → (∀ c, p.bufCap = some c → k ≤ c) →
    ∃ t, Host.Core.run Sys2Proof.core (8 * k + 1)
        (State.afterReset p (wbits bits ++ [.command { cw := 0x0006, data := 0, bias := 0 }])) = .next t ∧
      t.fin = true ∧ t.outLen = k ∧ t.out.map Prod.fst = List.range k ∧
      ∀ i q, i < k → q < 8 → ∃ x, Memory.read t.out i = some x ∧ bits[8 * i + q]? = some (x.getLsbD (7 - q))

/-- 40_accumulator.md R132: a write of width 0 leaves every piece of state unchanged, and after FIN it raises ERR_STATE. -/
def Obligations.WidthZeroWritesNothing : Prop :=
  ∀ (s : State) (d k : Word) (i : Instr), StateInv s →
    i ∈ [Instr.wuns 0 d, .wsigSm 0 d, .wsigOc 0 d, .wsigTc 0 d, .wsigBi 0 d k, .wsigNb 0 d] →
    (s.fin = false → ∃ t r, exec i s = .next t ∧ t.arch = s.arch ∧ t.replies = s.replies ++ [.response r] ∧
      r.status = .ok ∧ r.result = 0) ∧
    (s.fin = true → Raises i s .errState)

/-- 40_accumulator.md R133: WUNS has the state effect of the WBITs of its bits, ABYTE that of a WUNS of width 8. -/
def Obligations.WunsEqualsItsWbits : Prop :=
  (∀ (s : State) (b : BitVec 7) (d : Word), StateInv s → s.fin = false → b.toNat ≤ s.params.w →
    HasRoom (sealCount b.toNat s) s →
    ∃ t u, exec (.wuns b d) s = .next t ∧
      Host.Core.run Sys2Proof.core b.toNat
        { s with pending := wbits (msbBits (zextW s.params.w d % 2 ^ b.toNat) b.toNat) } = .next u ∧
      t.arch = u.arch) ∧
  (∀ (s : State) (d : Word), StateInv s → s.fin = false → zextW s.params.w d ≤ 255 → HasRoom 1 s →
    ∃ t u, exec (.abyte d) s = .next t ∧ exec (.wuns 8 d) s = .next u ∧ t.arch = u.arch)

/- Laws of the Signed Encoder -/

/-- 41_signed_encoder.md R160, R161: a pattern fits its width; RANGE comes only from SM and OC, for a value outside their range;
TC, BI and NB set TRUNC exactly out of range; width 0 gives (0, 0). -/
def Obligations.EncodeAnswersAPatternOrRange : Prop :=
  ∀ (v : Int) (b : Nat) (rep : Rep) (bias : Int),
    (b = 0 → encodeSigned v b rep bias = .pattern 0 false) ∧
    (1 ≤ b → (rep = .sm ∨ rep = .oc) → ¬ Representable rep v b bias → encodeSigned v b rep bias = .range) ∧
    (1 ≤ b → (rep = .sm ∨ rep = .oc) → Representable rep v b bias →
      ∃ p, encodeSigned v b rep bias = .pattern p false ∧ p < 2 ^ b) ∧
    (1 ≤ b → rep ≠ .sm → rep ≠ .oc →
      ∃ p t, encodeSigned v b rep bias = .pattern p t ∧ p < 2 ^ b ∧ (t = false ↔ Representable rep v b bias))

/-- 41_signed_encoder.md R162: the top bit is the sign, the others the absolute value, never negative zero. -/
def Obligations.SignMagnitudeBits : Prop :=
  ∀ (v : Int) (b : Nat), 1 ≤ b →
    (2 ^ (b - 1) - 1 < |v| → encodeSm v b = .range) ∧
    (|v| ≤ 2 ^ (b - 1) - 1 → ∃ p, encodeSm v b = .pattern p false ∧ p < 2 ^ b ∧
      p.testBit (b - 1) = decide (v < 0) ∧ ((p % 2 ^ (b - 1) : Nat) : Int) = |v| ∧ p ≠ 2 ^ (b - 1)) ∧
    encodeSm 0 b = .pattern 0 false ∧ (encodeSm v 1 ≠ .range ↔ v = 0) ∧
    encodeSm (-5) 4 = .pattern 0b1101 false

/-- 41_signed_encoder.md R163: a negative value is the bitwise complement of its absolute value, never negative zero. -/
def Obligations.OnesComplementBits : Prop :=
  ∀ (v : Int) (b : Nat), 1 ≤ b →
    (2 ^ (b - 1) - 1 < |v| → encodeOc v b = .range) ∧
    (|v| ≤ 2 ^ (b - 1) - 1 → ∃ p, encodeOc v b = .pattern p false ∧ p < 2 ^ b ∧ p ≠ 2 ^ b - 1 ∧
      (0 ≤ v → (p : Int) = v) ∧
      (v < 0 → (p : Int) = 2 ^ b - 1 - |v| ∧ ∀ i, i < b → p.testBit i = !(v.natAbs.testBit i))) ∧
    encodeOc 0 b = .pattern 0 false ∧ (encodeOc v 1 ≠ .range ↔ v = 0) ∧
    encodeOc (-5) 4 = .pattern 0b1010 false

/-- 41_signed_encoder.md R167: the exact range of radix -2, its size, and one value for each pattern. -/
def Obligations.RadixMinusTwoRangeIsExact : Prop :=
  (∀ b : Nat, 1 ≤ b →
    nbMin b * 3 = -2 * (4 ^ (b / 2) - 1) ∧ nbMax b * 3 = 4 ^ ((b + 1) / 2) - 1 ∧ nbMax b - nbMin b + 1 = 2 ^ b ∧
    (∀ v : Int, ∃ p t, encodeNb v b = .pattern p t ∧ (t = false ↔ nbMin b ≤ v ∧ v ≤ nbMax b)) ∧
    ∀ p : Nat, p < 2 ^ b → ∃! v : Int, nbMin b ≤ v ∧ v ≤ nbMax b ∧ encodeNb v b = .pattern p false) ∧
  nbMin 64 = -12297829382473034410 ∧ nbMin 64 < -2 ^ 63 ∧ nbMax 64 = 6148914691236517205 ∧
  ∀ d : Word, sextW 64 d < 0 → nbMin 64 ≤ sextW 64 d ∧ sextW 64 d ≤ nbMax 64

/-- 41_signed_encoder.md R168, the non-normative cross-check: the closed form agrees with the digit loop of R166. -/
def Obligations.RadixMinusTwoClosedForm : Prop :=
  ∀ (v : Int) (b : Nat), 1 ≤ b →
    encodeNb v b = .pattern (nbClosed v b) (!decide (nbMin b ≤ v ∧ v ≤ nbMax b))

/-- 41_signed_encoder.md R191: what is encoded is read back, and out of range it is read back mod 2^b. -/
def Obligations.EncodedValuesReadBack : Prop :=
  ∀ (rep : Rep) (b : Nat) (v bias : Int), 1 ≤ b →
    (Representable rep v b bias →
      ∃ p, encodeSigned v b rep bias = .pattern p false ∧ readerValue rep p b bias = v) ∧
    (¬ Representable rep v b bias → rep = .tc ∨ rep = .bi ∨ rep = .nb →
      ∃ p, encodeSigned v b rep bias = .pattern p true ∧ (2 : Int) ^ b ∣ readerValue rep p b bias - v)

/-- 41_signed_encoder.md R192: TC, BI and NB map their ranges one-to-one onto all patterns; SM and OC miss negative zero
alone. -/
def Obligations.PatternsAreReachedOnce : Prop :=
  ∀ (b : Nat) (bias : Int) (p : Nat), 1 ≤ b → p < 2 ^ b →
    (∀ rep, rep = .tc ∨ rep = .bi ∨ rep = .nb →
      ∃! v : Int, Representable rep v b bias ∧ encodeSigned v b rep bias = .pattern p false) ∧
    (p ≠ 2 ^ (b - 1) → ∃! v : Int, Representable .sm v b bias ∧ encodeSigned v b .sm bias = .pattern p false) ∧
    (p ≠ 2 ^ b - 1 → ∃! v : Int, Representable .oc v b bias ∧ encodeSigned v b .oc bias = .pattern p false) ∧
    (∀ v t, encodeSigned v b .sm bias ≠ .pattern (2 ^ (b - 1)) t) ∧
    (∀ v t, encodeSigned v b .oc bias ≠ .pattern (2 ^ b - 1) t)

/- How the operands are read -/

/-- DATA and BIAS are read as W-bit numbers, for every legal W (00_scope.md R12, 30_encoding.md R95, R96): zext_W is the number
mod 2^W, sext_W the one number congruent to it in -2^(W-1) .. 2^(W-1) - 1, and no command sees a line above the W of its bus. That
the model's buses have such lines is assumption log 4. The examples are V-W8-2 and V-W8-6 of 95_test_vectors.md. -/
def Obligations.OperandsAreReadAtTheBusWidth : Prop :=
  (∀ (w : Nat) (x : Word), 8 ≤ w → w ≤ 64 →
    zextW w x = x.toNat % 2 ^ w ∧
    (2 : Int) ^ w ∣ sextW w x - x.toNat ∧ -2 ^ (w - 1) ≤ sextW w x ∧ sextW w x ≤ 2 ^ (w - 1) - 1) ∧
  (∀ (s : State) (rest : List Interaction) (cw : BitVec 16) (d d' k k' : Word), s.params.Legal →
    d.toNat % 2 ^ s.params.w = d'.toNat % 2 ^ s.params.w → k.toNat % 2 ^ s.params.w = k'.toNat % 2 ^ s.params.w →
    step { s with pending := .command { cw := cw, data := d, bias := k } :: rest } =
      step { s with pending := .command { cw := cw, data := d', bias := k' } :: rest }) ∧
  (let s : State := State.afterReset { w := 8, bufCap := none } []
   exec (.wsigSm 8 0xC8) s = .next { s with
     out := [(0, 0xB8)], outLen := 1, replies := [.response { status := .ok, trunc := false, result := 0xB8 }] } ∧
   exec (.encBi 8 0x64 0xC8) s = .next { s with
     replies := [.response { status := .ok, trunc := false, result := 0x2C }] })
end

