-- ==== Sys2Proof/Laws/Bits.lean ====
section
/-! SUPPORT. The laws of digit strings, most significant bit first (00_scope.md R11). -/

namespace Sys2Proof.Machine

theorem msbBits_length (p n : Nat) : (msbBits p n).length = n := by
  induction n with
  | zero => rfl
  | succ n ih => simp [msbBits, ih]

/-- A digit string depends on the low bits alone. -/
theorem msbBits_congr {p q n : Nat} (h : ∀ i < n, p.testBit i = q.testBit i) : msbBits p n = msbBits q n := by
  induction n with
  | zero => rfl
  | succ n ih => simp [msbBits, h n (by omega), ih fun i hi => h i (by omega)]

theorem msbBits_mod (p n : Nat) : msbBits (p % 2 ^ n) n = msbBits p n :=
  msbBits_congr fun i hi => by simp [Nat.testBit_mod_two_pow, hi]

/-- The digits of a number followed by the digits of another one. -/
theorem msbBits_append (p q m n : Nat) (h : q < 2 ^ n) :
    msbBits (p * 2 ^ n + q) (m + n) = msbBits p m ++ msbBits q n := by
  induction m with
  | zero =>
    simp only [Nat.zero_add, msbBits, List.nil_append]
    refine msbBits_congr fun i hi => ?_
    rw [Nat.mul_comm, Nat.testBit_two_pow_mul_add _ h, if_pos hi]
  | succ m ih =>
    rw [show m + 1 + n = m + n + 1 by omega]
    simp only [msbBits, List.cons_append, ih]
    rw [Nat.mul_comm, Nat.testBit_two_pow_mul_add _ h, if_neg (by omega)]
    simp

/-- The first k of k + m digits are those of the quotient. -/
theorem msbBits_take (p k m : Nat) : (msbBits p (k + m)).take k = msbBits (p / 2 ^ m) k := by
  have hp : p / 2 ^ m * 2 ^ m + p % 2 ^ m = p := by
    rw [Nat.mul_comm]; exact Nat.div_add_mod p (2 ^ m)
  conv_lhs => rw [← hp, msbBits_append _ _ _ _ (Nat.mod_lt _ (Nat.two_pow_pos m))]
  exact List.take_left' (msbBits_length _ _)

theorem msbBits_one (b : Bool) : msbBits b.toNat 1 = [b] := by cases b <;> decide

theorem msbBits_getElem {p n i : Nat} (h : i < (msbBits p n).length) :
    (msbBits p n)[i] = p.testBit (n - 1 - i) := by
  induction n generalizing i with
  | zero => simp [msbBits] at h
  | succ n ih =>
    cases i with
    | zero => simp [msbBits]
    | succ i =>
      simp only [msbBits, List.getElem_cons_succ]
      rw [ih (by simpa [msbBits] using h)]
      congr 1
      have : i < n := by simpa [msbBits, msbBits_length] using h
      omega

end Sys2Proof.Machine
end

