-- ==== Sys2Proof/Laws/Memory.lean ====
section
/-! SUPPORT. The laws of the output memory: a read after a write, the canonical form, and what an append does. -/

namespace Sys2Proof.Machine

theorem Memory.read_write_same (m : Memory) (a : Nat) (x : Byte) :
    Memory.read (Memory.write m a x) a = some x := by
  induction m with
  | nil => simp [Memory.write, Memory.read]
  | cons c rest ih =>
    obtain ⟨k, y⟩ := c
    simp only [Memory.write]
    split_ifs with h1 h2
    · simp [Memory.read]
    · simp [Memory.read]
    · simp [Memory.read, Ne.symm h2, ih]

theorem Memory.read_write_other (m : Memory) {a b : Nat} (x : Byte) (h : b ≠ a) :
    Memory.read (Memory.write m a x) b = Memory.read m b := by
  induction m with
  | nil => simp [Memory.write, Memory.read, Ne.symm h]
  | cons c rest ih =>
    obtain ⟨k, y⟩ := c
    simp only [Memory.write]
    split_ifs with h1 h2
    · simp [Memory.read, Ne.symm h]
    · subst h2; simp [Memory.read, Ne.symm h]
    · simp [Memory.read, ih]

theorem Memory.wf_cons (k : Nat) (y : Byte) (m : Memory) :
    Memory.wf ((k, y) :: m) = true ↔ (∀ c ∈ m, k < c.1) ∧ Memory.wf m = true := by
  simp [Memory.wf]

theorem Memory.mem_write {m : Memory} {a : Nat} {x : Byte} {c : Host.Cell}
    (h : c ∈ Memory.write m a x) : c = (a, x) ∨ c ∈ m := by
  induction m with
  | nil => simpa [Memory.write] using h
  | cons d rest ih =>
    obtain ⟨k, y⟩ := d
    simp only [Memory.write] at h
    split_ifs at h with h1 h2 <;> simp only [List.mem_cons] at h ⊢
    · tauto
    · tauto
    · rcases h with h | h
      · exact .inr (.inl h)
      · rcases ih h with h | h <;> tauto

/-- A write keeps the canonical form. -/
theorem Memory.write_wf {m : Memory} (a : Nat) (x : Byte) (h : Memory.wf m = true) :
    Memory.wf (Memory.write m a x) = true := by
  induction m with
  | nil => simp [Memory.write, Memory.wf]
  | cons c rest ih =>
    obtain ⟨k, y⟩ := c
    have hw := h
    rw [Memory.wf_cons] at h
    simp only [Memory.write]
    split_ifs with h1 h2
    · rw [Memory.wf_cons]
      refine ⟨fun c hc => ?_, hw⟩
      rcases List.mem_cons.mp hc with rfl | hc
      · exact h1
      · exact h1.trans (h.1 c hc)
    · subst h2
      exact (Memory.wf_cons _ _ _).mpr h
    · rw [Memory.wf_cons]
      refine ⟨fun c hc => ?_, ih h.2⟩
      rcases Memory.mem_write hc with rfl | hc
      · show k < a; omega
      · exact h.1 c hc

theorem Memory.read_eq_none_of_lt {m : Memory} {a : Nat} (h : ∀ c ∈ m, a < c.1) : Memory.read m a = none := by
  induction m with
  | nil => rfl
  | cons c rest ih =>
    obtain ⟨k, y⟩ := c
    have hk : a < k := h (k, y) (by simp)
    simp only [Memory.read]
    rw [if_neg (by omega)]
    exact ih fun c hc => h c (by simp [hc])

/-- Equal memories are equal data: two canonical memories that read alike are one list. -/
theorem Memory.eq_of_reads {m n : Memory} (hm : Memory.wf m = true) (hn : Memory.wf n = true)
    (h : ∀ a, Memory.read m a = Memory.read n a) : m = n := by
  induction m generalizing n with
  | nil =>
    cases n with
    | nil => rfl
    | cons c rest => obtain ⟨k, y⟩ := c; simpa [Memory.read] using h k
  | cons c rest ih =>
    obtain ⟨k, y⟩ := c
    cases n with
    | nil => simpa [Memory.read] using h k
    | cons d rest' =>
      obtain ⟨k', y'⟩ := d
      rw [Memory.wf_cons] at hm hn
      have hkk : k = k' := by
        rcases Nat.lt_trichotomy k k' with hlt | heq | hlt
        · have hnone : Memory.read ((k', y') :: rest') k = none := by
            refine Memory.read_eq_none_of_lt fun c hc => ?_
            rcases List.mem_cons.mp hc with rfl | hc
            · exact hlt
            · exact hlt.trans (hn.1 c hc)
          have hk := h k
          rw [hnone] at hk
          simp [Memory.read] at hk
        · exact heq
        · have hnone : Memory.read ((k, y) :: rest) k' = none := by
            refine Memory.read_eq_none_of_lt fun c hc => ?_
            rcases List.mem_cons.mp hc with rfl | hc
            · exact hlt
            · exact hlt.trans (hm.1 c hc)
          have hk := h k'
          rw [hnone] at hk
          simp [Memory.read] at hk
      subst hkk
      have hy : y = y' := by simpa [Memory.read] using h k
      subst hy
      have hrest : rest = rest' := by
        refine ih hm.2 hn.2 fun a => ?_
        by_cases ha : k = a
        · subst ha
          rw [Memory.read_eq_none_of_lt hm.1, Memory.read_eq_none_of_lt hn.1]
        · simpa [Memory.read, ha] using h a
      rw [hrest]

/-- A write above every listed address appends. -/
theorem Memory.write_above {m : Memory} {a : Nat} (x : Byte) (h : ∀ c ∈ m, c.1 < a) :
    Memory.write m a x = m ++ [(a, x)] := by
  induction m with
  | nil => rfl
  | cons c rest ih =>
    obtain ⟨k, y⟩ := c
    have hk : k < a := h (k, y) (by simp)
    simp only [Memory.write, List.cons_append]
    rw [if_neg (by omega), if_neg (by omega), ih fun c hc => h c (by simp [hc])]

/-- A memory whose addresses are 0 .. n-1 takes the next byte at its end. -/
theorem Memory.write_dense {m : Memory} {n : Nat} (x : Byte) (h : m.map Prod.fst = List.range n) :
    Memory.write m n x = m ++ [(n, x)] := by
  refine Memory.write_above x fun c hc => ?_
  have : c.1 ∈ m.map Prod.fst := List.mem_map_of_mem hc
  rw [h] at this
  exact List.mem_range.mp this

theorem Memory.wf_iff_pairwise (m : Memory) :
    Memory.wf m = true ↔ (m.map Prod.fst).Pairwise (· < ·) := by
  induction m with
  | nil => simp [Memory.wf]
  | cons c rest ih =>
    obtain ⟨k, y⟩ := c
    rw [Memory.wf_cons, ih]
    simp

/-- A dense memory is canonical. -/
theorem Memory.wf_of_dense {m : Memory} {n : Nat} (h : m.map Prod.fst = List.range n) : Memory.wf m = true := by
  rw [Memory.wf_iff_pairwise, h]
  exact List.pairwise_lt_range

theorem Memory.read_append (m k : Memory) (a : Nat) :
    Memory.read (m ++ k) a = (Memory.read m a).or (Memory.read k a) := by
  induction m with
  | nil => simp [Memory.read]
  | cons c rest ih =>
    obtain ⟨b, y⟩ := c
    simp only [List.cons_append, Memory.read]
    split_ifs <;> simp [ih]

theorem Memory.read_isSome (m : Memory) (a : Nat) :
    (Memory.read m a).isSome = true ↔ a ∈ m.map Prod.fst := by
  induction m with
  | nil => simp [Memory.read]
  | cons c rest ih =>
    obtain ⟨b, y⟩ := c
    simp only [Memory.read, List.map_cons, List.mem_cons]
    split_ifs with h
    · simp [h]
    · rw [ih]
      constructor
      · exact .inr
      · rintro (rfl | h') <;> [exact absurd rfl h; exact h']

/-- A dense memory holds a byte exactly at the addresses below its length. -/
theorem Memory.read_dense {m : Memory} {n : Nat} (h : m.map Prod.fst = List.range n) (a : Nat) :
    (Memory.read m a).isSome = true ↔ a < n := by
  rw [Memory.read_isSome, h, List.mem_range]

end Sys2Proof.Machine
end

