-- ==== Sys2Proof/Laws/State.lean ====
section
/-! SUPPORT. One lemma per field of State per update, so that no proof unfolds a record update. -/

namespace Sys2Proof.Machine

@[simp] theorem reply_params (r : Reply) (s : State) :
    (reply r s).params = s.params := rfl
@[simp] theorem reply_out (r : Reply) (s : State) :
    (reply r s).out = s.out := rfl
@[simp] theorem reply_outLen (r : Reply) (s : State) :
    (reply r s).outLen = s.outLen := rfl
@[simp] theorem reply_pb (r : Reply) (s : State) :
    (reply r s).pb = s.pb := rfl
@[simp] theorem reply_pcnt (r : Reply) (s : State) :
    (reply r s).pcnt = s.pcnt := rfl
@[simp] theorem reply_fin (r : Reply) (s : State) :
    (reply r s).fin = s.fin := rfl
@[simp] theorem reply_pending (r : Reply) (s : State) :
    (reply r s).pending = s.pending := rfl
@[simp] theorem reply_replies (r : Reply) (s : State) :
    (reply r s).replies = s.replies ++ [r] := rfl

@[simp] theorem respond_params (t : Bool) (n : Nat) (s : State) :
    (respond t n s).params = s.params := rfl
@[simp] theorem respond_out (t : Bool) (n : Nat) (s : State) :
    (respond t n s).out = s.out := rfl
@[simp] theorem respond_outLen (t : Bool) (n : Nat) (s : State) :
    (respond t n s).outLen = s.outLen := rfl
@[simp] theorem respond_pb (t : Bool) (n : Nat) (s : State) :
    (respond t n s).pb = s.pb := rfl
@[simp] theorem respond_pcnt (t : Bool) (n : Nat) (s : State) :
    (respond t n s).pcnt = s.pcnt := rfl
@[simp] theorem respond_fin (t : Bool) (n : Nat) (s : State) :
    (respond t n s).fin = s.fin := rfl
@[simp] theorem respond_pending (t : Bool) (n : Nat) (s : State) :
    (respond t n s).pending = s.pending := rfl
@[simp] theorem respond_replies (t : Bool) (n : Nat) (s : State) :
    (respond t n s).replies = s.replies ++ [.response { status := .ok, trunc := t, result := onBus s.params.w n }] := rfl

@[simp] theorem raise_params (e : Status) (s : State) :
    (raise e s).params = s.params := rfl
@[simp] theorem raise_out (e : Status) (s : State) :
    (raise e s).out = s.out := rfl
@[simp] theorem raise_outLen (e : Status) (s : State) :
    (raise e s).outLen = s.outLen := rfl
@[simp] theorem raise_pb (e : Status) (s : State) :
    (raise e s).pb = s.pb := rfl
@[simp] theorem raise_pcnt (e : Status) (s : State) :
    (raise e s).pcnt = s.pcnt := rfl
@[simp] theorem raise_fin (e : Status) (s : State) :
    (raise e s).fin = s.fin := rfl
@[simp] theorem raise_pending (e : Status) (s : State) :
    (raise e s).pending = s.pending := rfl
@[simp] theorem raise_replies (e : Status) (s : State) :
    (raise e s).replies = s.replies ++ [.response { status := e, trunc := false, result := 0 }] := rfl

@[simp] theorem sealByte_params (x : Byte) (s : State) :
    (sealByte x s).params = s.params := rfl
@[simp] theorem sealByte_out (x : Byte) (s : State) :
    (sealByte x s).out = Memory.write s.out s.outLen x := rfl
@[simp] theorem sealByte_outLen (x : Byte) (s : State) :
    (sealByte x s).outLen = s.outLen + 1 := rfl
@[simp] theorem sealByte_pb (x : Byte) (s : State) :
    (sealByte x s).pb = s.pb := rfl
@[simp] theorem sealByte_pcnt (x : Byte) (s : State) :
    (sealByte x s).pcnt = s.pcnt := rfl
@[simp] theorem sealByte_fin (x : Byte) (s : State) :
    (sealByte x s).fin = s.fin := rfl
@[simp] theorem sealByte_pending (x : Byte) (s : State) :
    (sealByte x s).pending = s.pending := rfl
@[simp] theorem sealByte_replies (x : Byte) (s : State) :
    (sealByte x s).replies = s.replies := rfl

@[simp] theorem issued_params (q : List Interaction) (s : State) :
    (issued q s).params = s.params := rfl
@[simp] theorem issued_out (q : List Interaction) (s : State) :
    (issued q s).out = s.out := rfl
@[simp] theorem issued_outLen (q : List Interaction) (s : State) :
    (issued q s).outLen = s.outLen := rfl
@[simp] theorem issued_pb (q : List Interaction) (s : State) :
    (issued q s).pb = s.pb := rfl
@[simp] theorem issued_pcnt (q : List Interaction) (s : State) :
    (issued q s).pcnt = s.pcnt := rfl
@[simp] theorem issued_fin (q : List Interaction) (s : State) :
    (issued q s).fin = s.fin := rfl
@[simp] theorem issued_pending (q : List Interaction) (s : State) :
    (issued q s).pending = q := rfl
@[simp] theorem issued_replies (q : List Interaction) (s : State) :
    (issued q s).replies = s.replies := rfl

@[simp] theorem issueFirst_params (c : Command) (s : State) :
    (issueFirst c s).params = s.params := rfl
@[simp] theorem issueFirst_out (c : Command) (s : State) :
    (issueFirst c s).out = s.out := rfl
@[simp] theorem issueFirst_outLen (c : Command) (s : State) :
    (issueFirst c s).outLen = s.outLen := rfl
@[simp] theorem issueFirst_pb (c : Command) (s : State) :
    (issueFirst c s).pb = s.pb := rfl
@[simp] theorem issueFirst_pcnt (c : Command) (s : State) :
    (issueFirst c s).pcnt = s.pcnt := rfl
@[simp] theorem issueFirst_fin (c : Command) (s : State) :
    (issueFirst c s).fin = s.fin := rfl
@[simp] theorem issueFirst_pending (c : Command) (s : State) :
    (issueFirst c s).pending = .command c :: s.pending := rfl
@[simp] theorem issueFirst_replies (c : Command) (s : State) :
    (issueFirst c s).replies = s.replies := rfl

@[simp] theorem applyReset_params (s : State) :
    (applyReset s).params = s.params := rfl
@[simp] theorem applyReset_out (s : State) :
    (applyReset s).out = [] := rfl
@[simp] theorem applyReset_outLen (s : State) :
    (applyReset s).outLen = 0 := rfl
@[simp] theorem applyReset_pb (s : State) :
    (applyReset s).pb = 0 := rfl
@[simp] theorem applyReset_pcnt (s : State) :
    (applyReset s).pcnt = 0 := rfl
@[simp] theorem applyReset_fin (s : State) :
    (applyReset s).fin = false := rfl
@[simp] theorem applyReset_pending (s : State) :
    (applyReset s).pending = s.pending := rfl
@[simp] theorem applyReset_replies (s : State) :
    (applyReset s).replies = s.replies := rfl

@[simp] theorem idle_params (s : State) :
    (idle s).params = s.params := rfl
@[simp] theorem idle_out (s : State) :
    (idle s).out = s.out := rfl
@[simp] theorem idle_outLen (s : State) :
    (idle s).outLen = s.outLen := rfl
@[simp] theorem idle_pb (s : State) :
    (idle s).pb = s.pb := rfl
@[simp] theorem idle_pcnt (s : State) :
    (idle s).pcnt = s.pcnt := rfl
@[simp] theorem idle_fin (s : State) :
    (idle s).fin = s.fin := rfl
@[simp] theorem idle_pending (s : State) :
    (idle s).pending = s.pending := rfl
@[simp] theorem idle_replies (s : State) :
    (idle s).replies = s.replies := rfl

@[simp] theorem afterReset_params (p : Params) (q : List Interaction) :
    (State.afterReset p q).params = p := rfl
@[simp] theorem afterReset_out (p : Params) (q : List Interaction) :
    (State.afterReset p q).out = [] := rfl
@[simp] theorem afterReset_outLen (p : Params) (q : List Interaction) :
    (State.afterReset p q).outLen = 0 := rfl
@[simp] theorem afterReset_pb (p : Params) (q : List Interaction) :
    (State.afterReset p q).pb = 0 := rfl
@[simp] theorem afterReset_pcnt (p : Params) (q : List Interaction) :
    (State.afterReset p q).pcnt = 0 := rfl
@[simp] theorem afterReset_fin (p : Params) (q : List Interaction) :
    (State.afterReset p q).fin = false := rfl
@[simp] theorem afterReset_pending (p : Params) (q : List Interaction) :
    (State.afterReset p q).pending = q := rfl
@[simp] theorem afterReset_replies (p : Params) (q : List Interaction) :
    (State.afterReset p q).replies = [] := rfl

end Sys2Proof.Machine
end

