-- ==== Sys2Proof/Laws/Accumulator.lean ====
section
/-! SUPPORT. What placing bits does, said once: `Placed`. Every write command is a `Placed` step and an answer. -/

namespace Sys2Proof.Machine

/-- From s to t the given bits were placed at the cursor, the first one first, and nothing else changed. -/
structure Placed (s t : State) (bits : List Bool) : Prop where
  stream  : t.stream = s.stream ++ bits
  lowBits : t.pb.toNat % 2 ^ (8 - t.pcnt.toNat) = 0
  pcnt    : t.pcnt.toNat = (s.pcnt.toNat + bits.length) % 8
  outLen  : t.outLen = s.outLen + (s.pcnt.toNat + bits.length) / 8
  dense   : t.out.map Prod.fst = List.range t.outLen
  grows   : s.out <+: t.out
  fin     : t.fin = s.fin
  replies : t.replies = s.replies
  params  : t.params = s.params
  pending : t.pending = s.pending

theorem Placed.refl {s : State} (hd : s.out.map Prod.fst = List.range s.outLen)
    (hl : s.pb.toNat % 2 ^ (8 - s.pcnt.toNat) = 0) : Placed s s [] where
  stream := by simp
  lowBits := hl
  pcnt := by have := s.pcnt.isLt; simp only [List.length_nil]; omega
  outLen := by have := s.pcnt.isLt; simp only [List.length_nil]; omega
  dense := hd
  grows := List.prefix_refl _
  fin := rfl
  replies := rfl
  params := rfl
  pending := rfl

theorem Placed.trans {s t u : State} {a b : List Bool} (h : Placed s t a) (k : Placed t u b) :
    Placed s u (a ++ b) where
  stream := by rw [k.stream, h.stream, List.append_assoc]
  lowBits := k.lowBits
  pcnt := by rw [k.pcnt, h.pcnt, List.length_append]; omega
  outLen := by rw [k.outLen, h.outLen, h.pcnt, List.length_append]; omega
  dense := k.dense
  grows := h.grows.trans k.grows
  fin := k.fin.trans h.fin
  replies := k.replies.trans h.replies
  params := k.params.trans h.params
  pending := k.pending.trans h.pending

/-- The bytes that placing bits does not store keep their values; all of them were there before. -/
theorem Placed.bytes {s t : State} {bits : List Bool} (h : Placed s t bits)
    (hd : s.out.map Prod.fst = List.range s.outLen) (a : Nat)
    (ha : ¬ (s.outLen ≤ a ∧ a < t.outLen)) : Memory.read t.out a = Memory.read s.out a := by
  obtain ⟨new, hnew⟩ := h.grows
  by_cases hlt : a < s.outLen
  · rw [← hnew, Memory.read_append]
    obtain ⟨x, hx⟩ := Option.isSome_iff_exists.mp ((Memory.read_dense hd a).mpr hlt)
    simp [hx]
  · have h1 : ¬ (Memory.read s.out a).isSome = true := by rw [Memory.read_dense hd]; omega
    have h2 : ¬ (Memory.read t.out a).isSome = true := by rw [Memory.read_dense h.dense]; omega
    simp only [Option.not_isSome_iff_eq_none] at h1 h2
    rw [h1, h2]

theorem sealByte_dense {s : State} (hd : s.out.map Prod.fst = List.range s.outLen) (x : Byte) :
    (sealByte x s).out = s.out ++ [(s.outLen, x)] := Memory.write_dense x hd

/-- Sealing a byte at an aligned cursor places its eight bits. -/
theorem sealByte_placed {s : State} (hd : s.out.map Prod.fst = List.range s.outLen)
    (hl : s.pb.toNat % 2 ^ (8 - s.pcnt.toNat) = 0) (hk : s.pcnt = 0) (x : Byte) :
    Placed s (sealByte x s) (msbBits x.toNat 8) where
  stream := by simp [State.stream, Memory.write_dense x hd, hk]
  lowBits := by simpa using hl
  pcnt := by simp [msbBits_length, hk]
  outLen := by simp [msbBits_length, hk]
  dense := by rw [sealByte_dense hd, sealByte_outLen, List.range_succ]; simp [hd]
  grows := by rw [sealByte_dense hd]; exact List.prefix_append _ _
  fin := rfl
  replies := rfl
  params := rfl
  pending := rfl

/-- The pending byte with the next bit placed: it fits, its bits below the cursor are 0, its placed bits are the old ones and
the new one. -/
theorem placed_pending {x k : Nat} (b : Bool) (hk : k < 8) (hx : x < 256) (hl : x % 2 ^ (8 - k) = 0) :
    x + b.toNat * 2 ^ (7 - k) < 256 ∧ (x + b.toNat * 2 ^ (7 - k)) % 2 ^ (7 - k) = 0 ∧
    (msbBits (x + b.toNat * 2 ^ (7 - k)) 8).take (k + 1) = (msbBits x 8).take k ++ [b] := by
  obtain ⟨q, hq⟩ := Nat.dvd_of_mod_eq_zero hl
  have hp : 2 ^ (8 - k) = 2 * 2 ^ (7 - k) := by rw [show 8 - k = 7 - k + 1 by omega, pow_succ]; ring
  have hsum : x + b.toNat * 2 ^ (7 - k) = (q * 2 ^ 1 + b.toNat) * 2 ^ (7 - k) := by rw [hq, hp]; ring
  have hb : b.toNat < 2 ^ 1 := by cases b <;> simp
  have hq2 : q < 2 ^ k := by
    by_contra hc
    have : 2 ^ (8 - k) * 2 ^ k ≤ 2 ^ (8 - k) * q := Nat.mul_le_mul_left _ (by omega)
    rw [← pow_add, show 8 - k + k = 8 by omega, ← hq] at this
    omega
  have hle : (q * 2 ^ 1 + b.toNat) * 2 ^ (7 - k) < 256 := by
    have : q * 2 ^ 1 + b.toNat + 1 ≤ 2 ^ (k + 1) := by rw [pow_succ]; omega
    calc (q * 2 ^ 1 + b.toNat) * 2 ^ (7 - k) < 2 ^ (k + 1) * 2 ^ (7 - k) :=
          Nat.mul_lt_mul_of_pos_right (by omega) (Nat.two_pow_pos _)
      _ = 256 := by rw [← pow_add, show k + 1 + (7 - k) = 8 by omega]; rfl
  refine ⟨by rw [hsum]; exact hle, by rw [hsum]; exact Nat.mul_mod_left _ _, ?_⟩
  have h1 := msbBits_take (x + b.toNat * 2 ^ (7 - k)) (k + 1) (7 - k)
  rw [show k + 1 + (7 - k) = 8 by omega, hsum, Nat.mul_div_cancel _ (Nat.two_pow_pos _)] at h1
  have h2 := msbBits_take x k (8 - k)
  rw [show k + (8 - k) = 8 by omega, hq, Nat.mul_div_cancel_left _ (Nat.two_pow_pos _)] at h2
  rw [hsum, h1, hq, h2, msbBits_append _ _ _ _ hb, msbBits_one]

/-- Placing one bit. -/
theorem placeBit_placed {s : State} (hd : s.out.map Prod.fst = List.range s.outLen)
    (hl : s.pb.toNat % 2 ^ (8 - s.pcnt.toNat) = 0) (b : Bool) : Placed s (placeBit b s) [b] := by
  have hk := s.pcnt.isLt
  obtain ⟨hlt, hlow, htake⟩ := placed_pending b hk s.pb.isLt hl
  have hpb : (BitVec.ofNat 8 (s.pb.toNat + b.toNat * 2 ^ (7 - s.pcnt.toNat))).toNat =
      s.pb.toNat + b.toNat * 2 ^ (7 - s.pcnt.toNat) := by
    rw [BitVec.toNat_ofNat]; exact Nat.mod_eq_of_lt hlt
  unfold placeBit
  simp only
  split_ifs with h8
  · have h7 : s.pcnt.toNat = 7 := by omega
    refine ⟨?_, by simp, by simp [h7], by simp [h7], ?_, ?_, rfl, rfl, rfl, rfl⟩
    · have : (msbBits (s.pb.toNat + b.toNat * 2 ^ (7 - s.pcnt.toNat)) 8).take (s.pcnt.toNat + 1) =
          msbBits (s.pb.toNat + b.toNat * 2 ^ (7 - s.pcnt.toNat)) 8 := by
        rw [h8]; exact List.take_of_length_le (by simp [msbBits_length])
      rw [this] at htake
      simp [State.stream, Memory.write_dense _ hd, hpb, htake]
    · rw [sealByte_outLen, sealByte_dense hd, List.range_succ]; simp [hd]
    · rw [sealByte_dense hd]; exact List.prefix_append _ _
  · have hp : (s.pcnt + 1).toNat = s.pcnt.toNat + 1 := by
      rw [BitVec.toNat_add]; simp; omega
    refine ⟨?_, ?_, ?_, ?_, hd, List.prefix_refl _, rfl, rfl, rfl, rfl⟩
    · simp only [State.stream, hpb, hp, htake, List.append_assoc]
    · simp only [hpb, hp, show 8 - (s.pcnt.toNat + 1) = 7 - s.pcnt.toNat by omega, hlow]
    · simp only [hp, List.length_singleton]; omega
    · simp only [List.length_singleton]; omega

/-- `PutBits` places the n low bits of p, most significant first. -/
theorem putBits_placed {s : State} (hd : s.out.map Prod.fst = List.range s.outLen)
    (hl : s.pb.toNat % 2 ^ (8 - s.pcnt.toNat) = 0) (p n : Nat) : Placed s (putBits p n s) (msbBits p n) := by
  induction n generalizing s with
  | zero => exact Placed.refl hd hl
  | succ n ih =>
    have h1 := placeBit_placed hd hl (p.testBit n)
    exact h1.trans (ih h1.dense h1.lowBits)

/-- Two states in which the same bits have been placed from one state have the same architectural state. -/
theorem Placed.unique {s t u : State} {bits : List Bool} (h : Placed s t bits) (k : Placed s u bits) :
    t.pcnt = u.pcnt ∧ t.outLen = u.outLen ∧ t.stream = u.stream :=
  ⟨BitVec.eq_of_toNat_eq (h.pcnt.trans k.pcnt.symm), h.outLen.trans k.outLen.symm, h.stream.trans k.stream.symm⟩

end Sys2Proof.Machine
end

