-- ==== Sys2Proof/Laws/Decode.lean ====
section
/-! SUPPORT. The fields of format C as numbers, and the fields of a packed word (30_encoding.md R91). -/

namespace Sys2Proof

theorem cwOp_toNat (cw : BitVec 16) : (cwOp cw).toNat = cw.toNat % 16 := by
  simp [cwOp, BitVec.extractLsb'_toNat]

theorem cwRep_toNat (cw : BitVec 16) : (cwRep cw).toNat = cw.toNat / 16 % 8 := by
  simp [cwRep, BitVec.extractLsb'_toNat, Nat.shiftRight_eq_div_pow]

theorem cwRsv0_toNat (cw : BitVec 16) : (cwRsv0 cw).toNat = cw.toNat / 128 % 2 := by
  simp [cwRsv0, BitVec.extractLsb'_toNat, Nat.shiftRight_eq_div_pow]

theorem cwBits_toNat (cw : BitVec 16) : (cwBits cw).toNat = cw.toNat / 256 % 128 := by
  simp [cwBits, BitVec.extractLsb'_toNat, Nat.shiftRight_eq_div_pow]

theorem cwRsv1_toNat (cw : BitVec 16) : (cwRsv1 cw).toNat = cw.toNat / 32768 % 2 := by
  simp [cwRsv1, BitVec.extractLsb'_toNat, Nat.shiftRight_eq_div_pow]

/-- A packed word as a number. -/
theorem packCw_toNat (op : BitVec 4) (rep : BitVec 3) (b : BitVec 7) :
    (packCw op rep b).toNat = b.toNat * 256 + rep.toNat * 16 + op.toNat := by
  have h1 := op.isLt
  have h2 := rep.isLt
  have h3 := b.isLt
  simp only [packCw, BitVec.toNat_append, Nat.shiftLeft_eq]
  simp only [BitVec.toNat_ofNat, Nat.zero_mod, Nat.zero_mul, Nat.zero_or, Nat.or_zero]
  have e1 := Nat.two_pow_add_eq_or_of_lt h2 (b.toNat * 2 ^ 1)
  have e2 := Nat.two_pow_add_eq_or_of_lt h1 (b.toNat * 2 ^ 1 * 2 ^ 3 + rep.toNat)
  rw [Nat.mul_comm] at e1 e2
  rw [← e1, ← e2]
  omega

end Sys2Proof
end

