-- ==== Sys2Proof/Laws/Encoder.lean ====
section
/-! SUPPORT. What the Signed Encoder answers, said once: `encodeSigned_spec`; and the laws of base -2 it rests on. -/

namespace Sys2Proof.Machine

/- Base -2 -/

/-- The digit loop keeps v = (digits so far) + r * (-2)^i. -/
theorem nbLoop_spec (left i : Nat) (r : Int) (p : Nat) (hp : p < 2 ^ i) :
    (nbLoop left i r p).1 < 2 ^ (i + left) ∧
    nbValue (nbLoop left i r p).1 (i + left) + (nbLoop left i r p).2 * (-2) ^ (i + left) =
      nbValue p i + r * (-2) ^ i := by
  induction left generalizing i r p with
  | zero => exact ⟨hp, rfl⟩
  | succ left ih =>
    have key : ∀ (p q n : Nat), q < 2 ^ n → nbValue (p * 2 ^ n + q) n = nbValue q n := by
      intro p q n hq
      have gen : ∀ m, m ≤ n → nbValue (p * 2 ^ n + q) m = nbValue q m := by
        intro m
        induction m with
        | zero => intro _; rfl
        | succ m ihm =>
          intro hm
          have ht : (p * 2 ^ n + q).testBit m = q.testBit m := by
            rw [Nat.mul_comm, Nat.testBit_two_pow_mul_add _ hq, if_pos (by omega)]
          simp only [nbValue, ihm (by omega), ht]
      exact gen n le_rfl
    have hd : r % 2 = 0 ∨ r % 2 = 1 := by omega
    have hnext : p + (r % 2).toNat * 2 ^ i < 2 ^ (i + 1) := by
      rw [pow_succ]
      rcases hd with h | h <;> simp [h] <;> omega
    obtain ⟨h1, h2⟩ := ih (i + 1) ((r - r % 2) / (-2)) (p + (r % 2).toNat * 2 ^ i) hnext
    rw [show i + 1 + left = i + (left + 1) by omega] at h1 h2
    simp only [nbLoop]
    refine ⟨h1, h2.trans ?_⟩
    have hbit : (p + (r % 2).toNat * 2 ^ i).testBit i = decide (r % 2 = 1) := by
      rw [Nat.add_comm, Nat.mul_comm, Nat.testBit_two_pow_mul_add _ hp, if_neg (by omega)]
      rcases hd with h | h <;> simp [h]
    have hlow : nbValue (p + (r % 2).toNat * 2 ^ i) i = nbValue p i := by
      rw [Nat.add_comm]; exact key _ _ _ hp
    simp only [nbValue, hbit, hlow, pow_succ]
    have hdiv : (r - r % 2) / (-2) * (-2) = r - r % 2 := Int.ediv_mul_cancel (neg_dvd.mpr (by omega))
    rcases hd with h | h
    · simp only [h] at hdiv ⊢
      simp only [show ¬ ((0 : Int) = 1) by decide, decide_false, Bool.false_eq_true, if_false]
      linear_combination (-2) ^ i * hdiv
    · simp only [h] at hdiv ⊢
      simp only [decide_true, if_true]
      linear_combination (-2) ^ i * hdiv

theorem four_pow_sub_one (k : Nat) : (3 : Int) ∣ 4 ^ k - 1 := by
  have := sub_one_dvd_pow_sub_one (4 : Int) k
  simpa using this
where
  sub_one_dvd_pow_sub_one (a : Int) (k : Nat) : a - 1 ∣ a ^ k - 1 := by
    simpa using sub_dvd_pow_sub_pow a 1 k

theorem nbMin_mul (b : Nat) : nbMin b * 3 = -2 * (4 ^ (b / 2) - 1) := by
  unfold nbMin
  rw [mul_assoc, Int.ediv_mul_cancel (four_pow_sub_one _)]

theorem nbMax_mul (b : Nat) : nbMax b * 3 = 4 ^ ((b + 1) / 2) - 1 := by
  unfold nbMax
  rw [Int.ediv_mul_cancel (four_pow_sub_one _)]

/-- The weights: an even position widens the range upwards, an odd one downwards. -/
theorem nb_range_succ (b : Nat) :
    (b % 2 = 0 → nbMax (b + 1) = nbMax b + (-2) ^ b ∧ nbMin (b + 1) = nbMin b) ∧
    (b % 2 = 1 → nbMax (b + 1) = nbMax b ∧ nbMin (b + 1) = nbMin b + (-2) ^ b) := by
  have hmax := nbMax_mul b
  have hmax' := nbMax_mul (b + 1)
  have hmin := nbMin_mul b
  have hmin' := nbMin_mul (b + 1)
  constructor <;> intro h
  · obtain ⟨k, rfl⟩ : ∃ k, b = 2 * k := ⟨b / 2, by omega⟩
    rw [show (2 * k + 1) / 2 = k by omega] at hmax hmin'
    rw [show (2 * k + 1 + 1) / 2 = k + 1 by omega] at hmax'
    rw [show 2 * k / 2 = k by omega] at hmin
    have hp : ((-2 : Int)) ^ (2 * k) = 4 ^ k := by rw [pow_mul]; norm_num
    rw [pow_succ] at hmax'
    rw [hp]
    constructor <;> omega
  · obtain ⟨k, rfl⟩ : ∃ k, b = 2 * k + 1 := ⟨b / 2, by omega⟩
    rw [show (2 * k + 1 + 1) / 2 = k + 1 by omega] at hmax hmin'
    rw [show (2 * k + 1 + 1 + 1) / 2 = k + 1 by omega] at hmax'
    rw [show (2 * k + 1) / 2 = k by omega] at hmin
    have hp : ((-2 : Int)) ^ (2 * k + 1) = -2 * 4 ^ k := by rw [pow_succ, pow_mul]; norm_num; ring
    rw [pow_succ] at hmax hmin' hmax'
    rw [hp]
    constructor <;> omega

theorem nb_range_size (b : Nat) : nbMax b - nbMin b + 1 = 2 ^ b := by
  induction b with
  | zero => decide
  | succ b ih =>
    obtain ⟨he, ho⟩ := nb_range_succ b
    rcases Nat.mod_two_eq_zero_or_one b with h | h
    · obtain ⟨h1, h2⟩ := he h
      rw [Even.neg_pow (Nat.even_iff.mpr h)] at h1
      rw [h1, h2, pow_succ]; linarith
    · obtain ⟨h1, h2⟩ := ho h
      rw [Odd.neg_pow (Nat.odd_iff.mpr h)] at h2
      rw [h1, h2, pow_succ]; linarith

/-- Every digit string reads as a value in the range. -/
theorem nbValue_range (p b : Nat) : nbMin b ≤ nbValue p b ∧ nbValue p b ≤ nbMax b := by
  induction b with
  | zero =>
    have h : nbMin 0 ≤ 0 ∧ 0 ≤ nbMax 0 := by decide
    exact h
  | succ b ih =>
    obtain ⟨he, ho⟩ := nb_range_succ b
    have hpos : (0 : Int) < 2 ^ b := by positivity
    simp only [nbValue]
    rcases Nat.mod_two_eq_zero_or_one b with h | h
    · obtain ⟨h1, h2⟩ := he h
      rw [Even.neg_pow (Nat.even_iff.mpr h)] at h1
      rw [Even.neg_pow (Nat.even_iff.mpr h)]
      split_ifs <;> constructor <;> linarith [ih.1, ih.2]
    · obtain ⟨h1, h2⟩ := ho h
      rw [Odd.neg_pow (Nat.odd_iff.mpr h)] at h2
      rw [Odd.neg_pow (Nat.odd_iff.mpr h)]
      split_ifs <;> constructor <;> linarith [ih.1, ih.2]

theorem neg_two_pow_dvd (b : Nat) : (2 : Int) ^ b ∣ (-2) ^ b := by
  rcases Nat.even_or_odd b with h | h
  · rw [h.neg_pow]
  · rw [h.neg_pow]; exact (dvd_neg).mpr dvd_rfl

/-- Two values of the range that agree mod 2^b are equal. -/
theorem nb_range_unique {b : Nat} {v u : Int} (hv : nbMin b ≤ v ∧ v ≤ nbMax b) (hu : nbMin b ≤ u ∧ u ≤ nbMax b)
    (h : (2 : Int) ^ b ∣ v - u) : v = u := by
  have hs := nb_range_size b
  have hlt : |v - u| < 2 ^ b := by rw [abs_lt]; constructor <;> linarith [hv.1, hv.2, hu.1, hu.2]
  have := Int.eq_zero_of_abs_lt_dvd h hlt
  linarith

/-- What the radix -2 encoder answers: b digits that read as v mod 2^b, and TRUNC exactly out of range. -/
theorem encodeNb_spec (v : Int) (b : Nat) :
    ∃ p t, encodeNb v b = .pattern p t ∧ p < 2 ^ b ∧ (2 : Int) ^ b ∣ nbValue p b - v ∧
      (t = false ↔ nbMin b ≤ v ∧ v ≤ nbMax b) ∧ (t = false → nbValue p b = v) := by
  obtain ⟨h1, h2⟩ := nbLoop_spec b 0 v 0 (by decide)
  simp only [nbValue, pow_zero, mul_one, zero_add] at h1 h2
  have hr := nbValue_range (nbLoop b 0 v 0).1 b
  have hdvd : (2 : Int) ^ b ∣ nbValue (nbLoop b 0 v 0).1 b - v := by
    have : nbValue (nbLoop b 0 v 0).1 b - v = -(nbLoop b 0 v 0).2 * (-2) ^ b := by linarith
    rw [this]
    exact Dvd.dvd.mul_left (neg_two_pow_dvd b) _
  refine ⟨(nbLoop b 0 v 0).1, truncNb (nbLoop b 0 v 0).2, rfl, h1, hdvd, ?_, ?_⟩
  · constructor
    · intro h
      have hz : (nbLoop b 0 v 0).2 = 0 := by simpa [truncNb] using h
      rw [hz] at h2
      have : nbValue (nbLoop b 0 v 0).1 b = v := by linarith
      rw [← this]; exact hr
    · intro hv
      have he := nb_range_unique hr hv hdvd
      have hz : (nbLoop b 0 v 0).2 * (-2) ^ b = 0 := by linarith
      have : (nbLoop b 0 v 0).2 = 0 := by
        rcases mul_eq_zero.mp hz with h | h
        · exact h
        · exact absurd h (pow_ne_zero _ (by decide))
      simp [truncNb, this]
  · intro h
    have hz : (nbLoop b 0 v 0).2 = 0 := by simpa [truncNb] using h
    rw [hz] at h2
    linarith

/- The other representations -/

theorem two_pow_split {b : Nat} (hb : 1 ≤ b) : 2 ^ b = 2 * 2 ^ (b - 1) := by
  conv_lhs => rw [show b = b - 1 + 1 by omega, pow_succ]
  ring

theorem two_pow_split_int {b : Nat} (hb : 1 ≤ b) : (2 : Int) ^ b = 2 * 2 ^ (b - 1) := by
  exact_mod_cast two_pow_split hb

/-- Sign-magnitude: refused out of range, else the sign and the absolute value. -/
theorem encodeSm_spec (v : Int) {b : Nat} (hb : 1 ≤ b) :
    ((2 : Int) ^ (b - 1) - 1 < |v| → encodeSm v b = .range) ∧
    (|v| ≤ 2 ^ (b - 1) - 1 → ∃ p, encodeSm v b = .pattern p false ∧ p < 2 ^ b ∧
      (p : Int) = (if v < 0 then 2 ^ (b - 1) else 0) + |v|) := by
  have hpos : 0 < 2 ^ (b - 1) := Nat.two_pow_pos _
  have hcast : ((2 ^ (b - 1) : Nat) : Int) = 2 ^ (b - 1) := by push_cast; rfl
  have hv : |v| = (v.natAbs : Int) := Int.abs_eq_natAbs v
  have hs := two_pow_split hb
  unfold encodeSm
  constructor
  · intro h
    rw [if_pos (by omega)]
  · intro h
    rw [if_neg (by omega)]
    refine ⟨_, rfl, ?_, ?_⟩
    · split_ifs <;> omega
    · split_ifs <;> push_cast <;> omega

/-- A number below 2^b, complemented within b bits. -/
theorem complement_eq {b x : Nat} (hx : x < 2 ^ b) : (2 ^ b - 1) ^^^ x = 2 ^ b - 1 - x := by
  apply Nat.eq_of_testBit_eq
  intro i
  rw [Nat.sub_sub, Nat.add_comm 1 x, Nat.testBit_two_pow_sub_succ hx]
  simp only [Nat.testBit_xor, Nat.testBit_two_pow_sub_one]
  by_cases hi : i < b
  · simp [hi]
  · have : x.testBit i = false :=
      Nat.testBit_lt_two_pow (lt_of_lt_of_le hx (Nat.pow_le_pow_right (by decide) (by omega)))
    simp [hi, this]

/-- Ones' complement: refused out of range, else the value or the complement of its absolute value. -/
theorem encodeOc_spec (v : Int) {b : Nat} (hb : 1 ≤ b) :
    ((2 : Int) ^ (b - 1) - 1 < |v| → encodeOc v b = .range) ∧
    (|v| ≤ 2 ^ (b - 1) - 1 → ∃ p, encodeOc v b = .pattern p false ∧ p < 2 ^ b ∧
      (p : Int) = (if 0 ≤ v then v else 2 ^ b - 1 - |v|)) := by
  have hpos : 0 < 2 ^ (b - 1) := Nat.two_pow_pos _
  have hcast : ((2 ^ (b - 1) : Nat) : Int) = 2 ^ (b - 1) := by push_cast; rfl
  have hcast' : ((2 ^ b : Nat) : Int) = 2 ^ b := by push_cast; rfl
  have hv : |v| = (v.natAbs : Int) := Int.abs_eq_natAbs v
  have hs := two_pow_split hb
  unfold encodeOc
  constructor
  · intro h
    rw [if_pos (by omega)]
  · intro h
    rw [if_neg (by omega)]
    by_cases h0 : 0 ≤ v
    · rw [if_pos h0, if_pos h0]
      exact ⟨_, rfl, by omega, by omega⟩
    · rw [if_neg h0, if_neg h0, complement_eq (by omega)]
      exact ⟨_, rfl, by omega, by omega⟩

/-- A number mod 2^b as a pattern. -/
theorem emod_pattern (v : Int) (b : Nat) : (v % 2 ^ b).toNat < 2 ^ b ∧ ((v % 2 ^ b).toNat : Int) = v % 2 ^ b := by
  have hpos : (0 : Int) < 2 ^ b := by positivity
  have h0 := Int.emod_nonneg v hpos.ne'
  have h1 := Int.emod_lt_of_pos v hpos
  have hcast : ((2 ^ b : Nat) : Int) = 2 ^ b := by push_cast; rfl
  constructor <;> omega

theorem truncTc_iff (v : Int) (b : Nat) (bias : Int) : truncTc v b = true ↔ ¬ Representable .tc v b bias := by
  simp only [truncTc, Representable, rangeMin, rangeMax, Bool.not_eq_true', decide_eq_false_iff_not]

theorem truncBi_iff (v : Int) (b : Nat) (bias : Int) :
    truncBi (v + bias) b = true ↔ ¬ Representable .bi v b bias := by
  simp only [truncBi, Representable, rangeMin, rangeMax, Bool.not_eq_true', decide_eq_false_iff_not]
  constructor <;> intro h hc <;> exact h ⟨by linarith [hc.1], by linarith [hc.2]⟩

/-- What the encoder answers: RANGE where the representation refuses the value, else the pattern and TRUNC of its rule. -/
theorem encodeSigned_spec (v : Int) (b : Nat) (rep : Rep) (bias : Int) :
    (Refuses rep v b → encodeSigned v b rep bias = .range) ∧
    (¬ Refuses rep v b → ∃ p t, encodeSigned v b rep bias = .pattern p t ∧ EncodesTo rep v b bias p t) := by
  by_cases hb : b = 0
  · subst hb
    refine ⟨fun h => absurd h.2.1 (by decide), fun _ => ⟨0, false, rfl, by decide, fun _ => rfl, ?_⟩⟩
    intro h; exact absurd h (by decide)
  · have hb1 : 1 ≤ b := by omega
    unfold encodeSigned
    rw [if_neg hb]
    cases rep with
    | sm =>
      refine ⟨fun h => (encodeSm_spec v hb1).1 h.2.2, fun h => ?_⟩
      have hle : |v| ≤ 2 ^ (b - 1) - 1 := by
        by_contra hc
        exact h ⟨.inl rfl, hb1, by linarith⟩
      obtain ⟨p, h1, h2, h3⟩ := (encodeSm_spec v hb1).2 hle
      exact ⟨p, false, h1, h2, fun _ => rfl, fun _ => ⟨h3, rfl⟩⟩
    | oc =>
      refine ⟨fun h => (encodeOc_spec v hb1).1 h.2.2, fun h => ?_⟩
      have hle : |v| ≤ 2 ^ (b - 1) - 1 := by
        by_contra hc
        exact h ⟨.inr rfl, hb1, by linarith⟩
      obtain ⟨p, h1, h2, h3⟩ := (encodeOc_spec v hb1).2 hle
      exact ⟨p, false, h1, h2, fun _ => rfl, fun _ => ⟨h3, rfl⟩⟩
    | tc =>
      refine ⟨fun h => by simp [Refuses] at h, fun _ => ⟨_, _, rfl, (emod_pattern v b).1, fun h => absurd h hb,
        fun _ => ⟨(emod_pattern v b).2, truncTc_iff v b bias⟩⟩⟩
    | bi =>
      refine ⟨fun h => by simp [Refuses] at h, fun _ => ⟨_, _, rfl, (emod_pattern _ b).1, fun h => absurd h hb,
        fun _ => ⟨(emod_pattern _ b).2, truncBi_iff v b bias⟩⟩⟩
    | nb =>
      refine ⟨fun h => by simp [Refuses] at h, fun _ => ?_⟩
      obtain ⟨p, t, h1, h2, h3, h4, _⟩ := encodeNb_spec v b
      refine ⟨p, t, h1, h2, fun h => absurd h hb, fun _ => ⟨h3, ?_⟩⟩
      simp only [Representable, rangeMin, rangeMax]
      rw [← h4]; simp

end Sys2Proof.Machine
end

