-- ==== Sys2Proof/Laws/PerInstr.lean ====
section
/-! SUPPORT. Facts about each instruction as syntax: its word fits its row of the opcode table. -/

namespace Sys2Proof.Laws.FitsItsRow

/-- The instruction's row is in the table, and the word the encoder gives it fits that row (30_encoding.md R101). -/
def Statement (i : Instr) : Prop := i.row ∈ opcodeRows ∧ i.row.fits (encode i).cw = true

theorem row_mem (i : Instr) : i.row ∈ opcodeRows := by
  cases i <;> simp [opcodeRows, Instr.row]

theorem wbit (data : Word) : Statement (.wbit data) :=
  ⟨row_mem _, decide_eq_true (show packCw 1 0 0 &&& 0xFFFF = 0x0001 by decide)⟩
theorem abyte (data : Word) : Statement (.abyte data) :=
  ⟨row_mem _, decide_eq_true (show packCw 2 0 0 &&& 0xFFFF = 0x0002 by decide)⟩

/-- Every width in format C with a row's opcode and tag fits that row's mask. -/
theorem packCw_fits : ∀ b : BitVec 7,
    packCw 3 0 b &&& 0x80FF = 0x0003 ∧
    packCw 4 0 b &&& 0x80FF = 0x0004 ∧ packCw 4 1 b &&& 0x80FF = 0x0014 ∧ packCw 4 2 b &&& 0x80FF = 0x0024 ∧
    packCw 4 3 b &&& 0x80FF = 0x0034 ∧ packCw 4 4 b &&& 0x80FF = 0x0044 ∧
    packCw 5 0 b &&& 0x80FF = 0x0005 ∧ packCw 5 1 b &&& 0x80FF = 0x0015 ∧ packCw 5 2 b &&& 0x80FF = 0x0025 ∧
    packCw 5 3 b &&& 0x80FF = 0x0035 ∧ packCw 5 4 b &&& 0x80FF = 0x0045 := by decide +kernel

theorem wuns (b : BitVec 7) (data : Word) : Statement (.wuns b data) :=
  ⟨row_mem _, decide_eq_true (packCw_fits b).1⟩
theorem wsigSm (b : BitVec 7) (data : Word) : Statement (.wsigSm b data) :=
  ⟨row_mem _, decide_eq_true (packCw_fits b).2.1⟩
theorem wsigOc (b : BitVec 7) (data : Word) : Statement (.wsigOc b data) :=
  ⟨row_mem _, decide_eq_true (packCw_fits b).2.2.1⟩
theorem wsigTc (b : BitVec 7) (data : Word) : Statement (.wsigTc b data) :=
  ⟨row_mem _, decide_eq_true (packCw_fits b).2.2.2.1⟩
theorem wsigBi (b : BitVec 7) (data bias : Word) : Statement (.wsigBi b data bias) :=
  ⟨row_mem _, decide_eq_true (packCw_fits b).2.2.2.2.1⟩
theorem wsigNb (b : BitVec 7) (data : Word) : Statement (.wsigNb b data) :=
  ⟨row_mem _, decide_eq_true (packCw_fits b).2.2.2.2.2.1⟩
theorem encSm (b : BitVec 7) (data : Word) : Statement (.encSm b data) :=
  ⟨row_mem _, decide_eq_true (packCw_fits b).2.2.2.2.2.2.1⟩
theorem encOc (b : BitVec 7) (data : Word) : Statement (.encOc b data) :=
  ⟨row_mem _, decide_eq_true (packCw_fits b).2.2.2.2.2.2.2.1⟩
theorem encTc (b : BitVec 7) (data : Word) : Statement (.encTc b data) :=
  ⟨row_mem _, decide_eq_true (packCw_fits b).2.2.2.2.2.2.2.2.1⟩
theorem encBi (b : BitVec 7) (data bias : Word) : Statement (.encBi b data bias) :=
  ⟨row_mem _, decide_eq_true (packCw_fits b).2.2.2.2.2.2.2.2.2.1⟩
theorem encNb (b : BitVec 7) (data : Word) : Statement (.encNb b data) :=
  ⟨row_mem _, decide_eq_true (packCw_fits b).2.2.2.2.2.2.2.2.2.2⟩
theorem fin : Statement .fin :=
  ⟨row_mem _, decide_eq_true (show packCw 6 0 0 &&& 0xFFFF = 0x0006 by decide)⟩

end Sys2Proof.Laws.FitsItsRow
end

