-- ==== Sys2Proof/Laws/Step.lean ====
section
/-! SUPPORT. What a command can do, said once: `exec_cases`; and the frames of its four ways to end. -/

namespace Sys2Proof.Machine

theorem capOk_iff (k : Nat) (s : State) : capOk k s = true ↔ HasRoom k s := by
  unfold capOk HasRoom
  cases h : s.params.bufCap with
  | none => simp
  | some c => simp

theorem tooWide_iff (b : BitVec 7) (s : State) : tooWide b s = true ↔ s.params.w < b.toNat :=
  decide_eq_true_iff

/-- How a command ends: an error; an answer alone (ENC, or FIN repeated); bits placed and an answer; a byte sealed at an
aligned cursor and an answer; the writer closed and an answer. -/
inductive Ends (i : Instr) (s : State) : State → Prop where
  | raised (e : Status) : e ≠ .ok → Ends i s (raise e s)
  | answered (tr : Bool) (r : Nat) : (i.isWrite = false) → (i = .fin → s.fin = true) → Ends i s (respond tr r s)
  | placed (tr : Bool) (r p n : Nat) : i.isWrite = true → s.fin = false → HasRoom (sealCount n s) s →
      Ends i s (respond tr r (putBits p n s))
  | sealed (x : Byte) : i.isWrite = true → s.fin = false → s.pcnt = 0 → HasRoom 1 s →
      Ends i s (respond false 0 (sealByte x s))
  | closed : i = .fin → s.fin = false → HasRoom (if s.pcnt = 0 then 0 else 1) s →
      Ends i s (respond false (finalize s).outLen (finalize s))

theorem writeSigned_ends (i : Instr) (hi : i.isWrite = true) (rep : Rep) (b : BitVec 7) (d k : Word) (s : State) :
    Ends i s (writeSigned rep b d k s) := by
  unfold writeSigned
  simp only
  split
  · exact .raised _ (by decide)
  · rename_i hf
    split
    · exact .raised _ (by decide)
    · split
      · exact .raised _ (by decide)
      · split
        · exact .raised _ (by decide)
        · rename_i hc
          refine .placed _ _ _ _ hi (by simpa using hf) ?_
          rw [← capOk_iff]; simpa using hc

theorem encodeOnly_ends (i : Instr) (hi : i.isWrite = false) (hn : i ≠ .fin) (rep : Rep) (b : BitVec 7) (d k : Word)
    (s : State) : Ends i s (encodeOnly rep b d k s) := by
  unfold encodeOnly
  split
  · exact .raised _ (by decide)
  · split
    · exact .raised _ (by decide)
    · exact .answered _ _ hi fun h => absurd h hn

/-- A command always answers a next state, in one of the ways of `Ends`. -/
theorem exec_cases (i : Instr) (s : State) : ∃ t, exec i s = .next t ∧ Ends i s t := by
  cases i with
  | wbit d =>
    simp only [exec, execWbit]
    split_ifs with h1 h2 h3
    · exact ⟨_, rfl, .raised _ (by decide)⟩
    · exact ⟨_, rfl, .raised _ (by decide)⟩
    · exact ⟨_, rfl, .raised _ (by decide)⟩
    · exact ⟨_, rfl, .placed _ _ _ _ rfl (by simpa using h1) ((capOk_iff _ _).mp (by simpa using h3))⟩
  | abyte d =>
    simp only [exec, execAbyte]
    split_ifs with h1 h2 h3 h4
    · exact ⟨_, rfl, .raised _ (by decide)⟩
    · exact ⟨_, rfl, .raised _ (by decide)⟩
    · exact ⟨_, rfl, .raised _ (by decide)⟩
    · exact ⟨_, rfl, .sealed _ rfl (by simpa using h1) h4 ((capOk_iff _ _).mp (by simpa using h3))⟩
    · refine ⟨_, rfl, .placed _ _ _ _ rfl (by simpa using h1) ?_⟩
      have : sealCount 8 s = 1 := by have := s.pcnt.isLt; unfold sealCount; omega
      rw [this]
      exact (capOk_iff _ _).mp (by simpa using h3)
  | wuns b d =>
    simp only [exec, execWuns]
    split_ifs with h1 h2 h3
    · exact ⟨_, rfl, .raised _ (by decide)⟩
    · exact ⟨_, rfl, .raised _ (by decide)⟩
    · exact ⟨_, rfl, .raised _ (by decide)⟩
    · exact ⟨_, rfl, .placed _ _ _ _ rfl (by simpa using h1) ((capOk_iff _ _).mp (by simpa using h3))⟩
  | wsigSm b d => exact ⟨_, rfl, writeSigned_ends _ rfl _ _ _ _ _⟩
  | wsigOc b d => exact ⟨_, rfl, writeSigned_ends _ rfl _ _ _ _ _⟩
  | wsigTc b d => exact ⟨_, rfl, writeSigned_ends _ rfl _ _ _ _ _⟩
  | wsigBi b d k => exact ⟨_, rfl, writeSigned_ends _ rfl _ _ _ _ _⟩
  | wsigNb b d => exact ⟨_, rfl, writeSigned_ends _ rfl _ _ _ _ _⟩
  | encSm b d => exact ⟨_, rfl, encodeOnly_ends _ rfl (by simp) _ _ _ _ _⟩
  | encOc b d => exact ⟨_, rfl, encodeOnly_ends _ rfl (by simp) _ _ _ _ _⟩
  | encTc b d => exact ⟨_, rfl, encodeOnly_ends _ rfl (by simp) _ _ _ _ _⟩
  | encBi b d k => exact ⟨_, rfl, encodeOnly_ends _ rfl (by simp) _ _ _ _ _⟩
  | encNb b d => exact ⟨_, rfl, encodeOnly_ends _ rfl (by simp) _ _ _ _ _⟩
  | fin =>
    simp only [exec, execFin]
    by_cases h1 : s.fin = true
    · rw [if_pos h1]; exact ⟨_, rfl, .answered _ _ rfl fun _ => h1⟩
    · rw [if_neg h1]
      by_cases h2 : (!capOk (if s.pcnt = 0 then 0 else 1) s) = true
      · rw [if_pos h2]; exact ⟨_, rfl, .raised _ (by decide)⟩
      · rw [if_neg h2]
        exact ⟨_, rfl, .closed rfl (by simpa using h1) ((capOk_iff _ _).mp (by simpa only [Bool.not_eq_true', Bool.not_eq_false] using h2))⟩

/-- What closing the writer does: the pending byte, if it holds a bit, is sealed as it stands. -/
theorem finalize_eq (s : State) : finalize s =
    if s.pcnt = 0 then { s with fin := true }
    else { s with
      out := Memory.write s.out s.outLen s.pb
      outLen := s.outLen + 1
      pb := 0
      pcnt := 0
      fin := true } := rfl

/-- The parameters, the host's list and the answers after `PutBits` are those before, whatever the state. -/
theorem putBits_frame (p n : Nat) (s : State) :
    (putBits p n s).params = s.params ∧ (putBits p n s).fin = s.fin ∧
    (putBits p n s).pending = s.pending ∧ (putBits p n s).replies = s.replies := by
  induction n generalizing s with
  | zero => simp [putBits]
  | succ n ih =>
    have h := ih (placeBit (p.testBit n) s)
    have h1 : (placeBit (p.testBit n) s).params = s.params ∧ (placeBit (p.testBit n) s).fin = s.fin ∧
        (placeBit (p.testBit n) s).pending = s.pending ∧ (placeBit (p.testBit n) s).replies = s.replies := by
      unfold placeBit
      simp only
      split_ifs <;> simp
    simp only [putBits]
    exact ⟨h.1.trans h1.1, h.2.1.trans h1.2.1, h.2.2.1.trans h1.2.2.1, h.2.2.2.trans h1.2.2.2⟩

/-- A command leaves the parameters and the host's list, and adds one answer. -/
theorem Ends.frame {i : Instr} {s t : State} (h : Ends i s t) :
    t.params = s.params ∧ t.pending = s.pending ∧ ∃ r, t.replies = s.replies ++ [.response r] := by
  cases h with
  | raised e he => exact ⟨rfl, rfl, _, rfl⟩
  | answered tr r => exact ⟨rfl, rfl, _, rfl⟩
  | placed tr r p n =>
    obtain ⟨h1, _, h3, h4⟩ := putBits_frame p n s
    exact ⟨h1, h3, _, by rw [respond_replies, h4]⟩
  | sealed x => exact ⟨rfl, rfl, _, rfl⟩
  | closed =>
    have hf : (finalize s).params = s.params ∧ (finalize s).pending = s.pending ∧
        (finalize s).replies = s.replies := by
      unfold finalize
      split_ifs <;> simp
    exact ⟨hf.1, hf.2.1, _, by rw [respond_replies, hf.2.2]⟩

end Sys2Proof.Machine
end

