-- ==== Sys2Proof/Tests/Slice0.lean ====
section
/-! SUPPORT. Tests of the model on the spec's own vectors (95_test_vectors.md; the id stands in the name or the comment), the
smoke test of WellFormed, and witnesses that meet the hypotheses of the obligations. -/

namespace Sys2Proof.Tests

open Sys2Proof.Machine

/- WellFormed: with W = 8, an operand of each command that does not fit its bus is refused -/

theorem test_wellFormed_data :
    [Instr.wbit 256, .abyte 256, .wuns 8 256, .wsigSm 8 256, .wsigOc 8 256, .wsigTc 8 256, .wsigBi 8 256 0, .wsigNb 8 256,
     .encSm 8 256, .encOc 8 256, .encTc 8 256, .encBi 8 256 0, .encNb 8 256].all (fun i => !i.wellFormed 8) = true := by
  decide
theorem test_wellFormed_bias :
    [Instr.wsigBi 8 255 256, .encBi 8 255 256].all (fun i => !i.wellFormed 8) = true := by decide
theorem test_wellFormed_accepts :
    [Instr.wbit 255, .wuns 127 255, .wsigBi 0 255 255, .fin].all (fun i => i.wellFormed 8) = true := by decide

/- Decoding: words written out bit by bit from format C, RSV1 BITS RSV0 REP OP (30_encoding.md R91 to R93) -/

def word (cw : BitVec 16) : Option Instr := (decode { cw := cw, data := 5, bias := 6 }).toOption

theorem test_decode_wbit   : word 0b0_0000000_0_000_0001 = some (.wbit 5) := by decide
theorem test_decode_abyte  : word 0b0_0000000_0_000_0010 = some (.abyte 5) := by decide
theorem test_decode_wuns   : word 0b0_1000000_0_000_0011 = some (.wuns 64 5) := by decide
theorem test_decode_wsigSm : word 0b0_0000100_0_000_0100 = some (.wsigSm 4 5) := by decide
theorem test_decode_wsigOc : word 0b0_0000100_0_001_0100 = some (.wsigOc 4 5) := by decide
theorem test_decode_wsigTc : word 0b0_0000011_0_010_0100 = some (.wsigTc 3 5) := by decide
theorem test_decode_wsigBi : word 0b0_0001101_0_011_0100 = some (.wsigBi 13 5 6) := by decide
theorem test_decode_wsigNb : word 0b0_0000100_0_100_0100 = some (.wsigNb 4 5) := by decide
theorem test_decode_encSm  : word 0b0_1000000_0_000_0101 = some (.encSm 64 5) := by decide
theorem test_decode_encOc  : word 0b0_1000000_0_001_0101 = some (.encOc 64 5) := by decide
theorem test_decode_encTc  : word 0b0_1111111_0_010_0101 = some (.encTc 127 5) := by decide
theorem test_decode_encBi  : word 0b0_0001000_0_011_0101 = some (.encBi 8 5 6) := by decide
theorem test_decode_encNb  : word 0b0_0000001_0_100_0101 = some (.encNb 1 5) := by decide
theorem test_decode_fin    : word 0b0_0000000_0_000_0110 = some .fin := by decide

/-- V-ILL-1 to V-ILL-11, and OP 0x7..0xF, REP 5..7: no instruction. -/
theorem test_decode_illegal :
    [0x0000, 0x0007, 0x0008, 0x000F, 0x0080, 0x8001, 0x0011, 0x0101, 0x0054, 0x0065, 0x0074, 0x0106, 0x0016, 0x0102,
     0x0013].all (fun cw => word cw == none) = true := by decide

theorem test_decodeTableWord :
    decodeTableWord 16 0x0703 = some (.wuns 7 0) ∧ decodeTableWord 16 0x0034 = some (.wsigBi 0 0 0) ∧
    decodeTableWord 144 0x7FFFFFFFFFFFFFFF850D34 = some (.wsigBi 13 0xFFFFFFFFFFFFFF85 0x7F) := by decide

/- One step of each command. What is looked at: the sealed bytes, PB, PCNT, FIN, the last reply. -/

abbrev Seen := Option (List Byte × Byte × BitVec 3 × Bool × Option Reply)

def seen (o : Host.Outcome State Fault Refusal) : Seen :=
  match o with
  | .next t => some (t.output, t.pb, t.pcnt, t.fin, t.replies.getLast?)
  | _       => none

/-- W, BUF_CAP, the sealed bytes, PB, PCNT, FIN. -/
def at_ (w : Nat) (cap : Option Nat) (bytes : List Byte) (pb : Byte) (pcnt : BitVec 3) (fin : Bool) : State :=
  { State.reset with
    params := { w := w, bufCap := cap }
    out := (List.range bytes.length).zip bytes
    outLen := bytes.length
    pb := pb
    pcnt := pcnt
    fin := fin }

def run (s : State) (cw : BitVec 16) (data : Word) (bias : Word := 0) : Seen :=
  seen (step { s with pending := [.command { cw := cw, data := data, bias := bias }] })

def ok (trunc : Bool) (result : Word) : Option Reply :=
  some (.response { status := .ok, trunc := trunc, result := result })
def err (e : Status) : Option Reply := some (.response { status := e, trunc := false, result := 0 })

theorem test_wbit_seals : run (at_ 64 none [] 0xB6 7 false) 0x0001 1 =
    some ([0xB7], 0x00, 0, false, ok false 0) := by decide                                          -- V-WBIT-8
theorem test_wbit_rejects : run (at_ 64 none [0xB7] 0x80 1 false) 0x0001 2 =
    some ([0xB7], 0x80, 1, false, err .errValue) := by decide                                       -- V-WBIT-10
theorem test_abyte_carries : run (at_ 64 none [0xA5, 0xFF] 0x80 4 false) 0x0002 0x81 =
    some ([0xA5, 0xFF, 0x88], 0x10, 4, false, ok false 0) := by decide                              -- V-ABYTE-5
theorem test_abyte_aligned : run (at_ 64 none [] 0 0 false) 0x0002 0xA5 =
    some ([0xA5], 0x00, 0, false, ok false 0) := by decide                                          -- V-ABYTE-1
theorem test_wuns_wide : run (at_ 64 none [0xFF] 0xA0 3 false) 0x4003 0xFFFFFFFFFFFFFFFF =
    some ([0xFF, 0xBF, 0xFF, 0xFF, 0xFF, 0xFF, 0xFF, 0xFF, 0xFF], 0xE0, 3, false, ok false 0xFFFFFFFFFFFFFFFF) := by
  decide +kernel                                                                                    -- V-WUNS-4
theorem test_wuns_truncates : run (at_ 64 none [] 0 0 false) 0x0803 0x1FF =
    some ([0xFF], 0x00, 0, false, ok true 0xFF) := by decide                                        -- V-WUNS-1
theorem test_fin_pads_zeros : run (at_ 64 none [0xA5, 0xFF, 0x88, 0x10] 0x00 4 false) 0x0006 0 =
    some ([0xA5, 0xFF, 0x88, 0x10, 0x00], 0x00, 0, true, ok false 5) := by decide                   -- V-ABYTE-8
theorem test_fin_repeated : run (at_ 64 none [0x80] 0 0 true) 0x0006 0x1234 =
    some ([0x80], 0x00, 0, true, ok false 1) := by decide                                           -- V-FIN-9
theorem test_wsigSm_writes : run (at_ 64 none [] 0xE0 3 false) 0x0404 0xFFFFFFFFFFFFFFFB =
    some ([], 0xFA, 7, false, ok false 0xD) := by decide                                            -- V-WSIG-2
theorem test_wsigSm_width_before_range : run (at_ 64 none [0xFB] 0x40 2 false) 0x4104 8 =
    some ([0xFB], 0x40, 2, false, err .errWidth) := by decide                                       -- V-WSIG-13
theorem test_wsigOc_writes : run (at_ 64 none [] 0xFA 7 false) 0x0414 0xFFFFFFFFFFFFFFFB =
    some ([0xFB], 0x40, 3, false, ok false 0xA) := by decide                                        -- V-WSIG-3
theorem test_wsigOc_range : run (at_ 64 none [] 0 0 false) 0x0414 0xFFFFFFFFFFFFFFF8 =
    some ([], 0x00, 0, false, err .errRange) := by decide                                           -- V-WSIG-8
theorem test_wsigTc_wraps : run (at_ 64 none [0xFB] 0x50 4 false) 0x0424 8 =
    some ([0xFB, 0x58], 0x00, 0, false, ok true 0x8) := by decide                                   -- V-WSIG-6
theorem test_wsigTc_full : run (at_ 64 (some 1) [0x11] 0xFE 7 false) 0x0724 0xFFFFFFFFFFFFFFFF =
    some ([0x11], 0xFE, 7, false, err .errFull) := by decide                                        -- V-FULL-8
theorem test_wsigBi_writes : run (at_ 64 none [0xFB] 0x40 3 false) 0x0D34 0xFFFFFFFFFFFFFF85 0x7F =
    some ([0xFB, 0x40, 0x04], 0x00, 0, false, ok false 0x4) := by decide                            -- V-WSIG-4
theorem test_wsigBi_after_fin : run (at_ 64 none [] 0 0 true) 0x0034 0 =
    some ([], 0x00, 0, true, err .errState) := by decide                                            -- R223
theorem test_wsigNb_writes : run (at_ 64 none [0xDA, 0x00, 0x22] 0x80 1 false) 0x0444 0xFFFFFFFFFFFFFFF6 =
    some ([0xDA, 0x00, 0x22], 0xD0, 5, false, ok false 0xA) := by decide                            -- P2
theorem test_wsigNb_one_digit : run (at_ 64 none [] 0x00 1 false) 0x0144 0xFFFFFFFFFFFFFFFF =
    some ([], 0x40, 2, false, ok true 0x1) := by decide                                             -- V-WSIG-11
theorem test_encSm_min : run State.reset 0x4005 0x8000000000000000 =
    some ([], 0x00, 0, false, err .errRange) := by decide                                           -- V-ENC-2s
theorem test_encSm_minus_one : run State.reset 0x4005 0xFFFFFFFFFFFFFFFF =
    some ([], 0x00, 0, false, ok false 0x8000000000000001) := by decide                             -- V-ENC-2u
theorem test_encOc_minus_three : run State.reset 0x0315 0xFFFFFFFFFFFFFFFD =
    some ([], 0x00, 0, false, ok false 0x4) := by decide                                            -- V-ENC-2ab
theorem test_encOc_zero : run State.reset 0x0415 0 =
    some ([], 0x00, 0, false, ok false 0x0) := by decide                                            -- V-ENC-2ad
theorem test_encTc_after_fin : run (at_ 64 none [0x80] 0 0 true) 0x0425 0xFFFFFFFFFFFFFFFF =
    some ([0x80], 0x00, 0, true, ok false 0xF) := by decide                                         -- V-FIN-8
theorem test_encTc_min : run State.reset 0x4025 0x8000000000000000 =
    some ([], 0x00, 0, false, ok false 0x8000000000000000) := by decide                             -- V-ENC-2q
theorem test_encBi_min_sum : run State.reset 0x4035 0x8000000000000000 0x8000000000000000 =
    some ([], 0x00, 0, false, ok true 0x0) := by decide                                             -- V-ENC-2y
theorem test_encBi_eight_bit_bus : run (at_ 8 none [0xB8, 0x80] 0 0 false) 0x0835 0x64 0xC8 =
    some ([0xB8, 0x80], 0x00, 0, false, ok false 0x2C) := by decide                                 -- V-W8-6
theorem test_encNb_max : run State.reset 0x4045 0x7FFFFFFFFFFFFFFF =
    some ([], 0x00, 0, false, ok true 0x8000000000000003) := by decide +kernel                      -- V-ENC-2x
theorem test_encNb_eight_bit_bus : run (at_ 8 none [0xB8, 0x80] 0 0 false) 0x0845 0x7F =
    some ([0xB8, 0x80], 0x00, 0, false, ok true 0x83) := by decide                                  -- V-W8-5
theorem test_illegal_after_fin : run (at_ 64 none [0x80] 0 0 true) 0x0007 0 =
    some ([0x80], 0x00, 0, true, err .errIllegal) := by decide                                      -- V-ILL-13

/- The encoder on V-ENC-1 (b = 4, bias 8), whole, and the ranges of R169 -/

def row (v : Int) : List Encoded := [Rep.sm, .oc, .tc, .bi, .nb].map fun rep => encodeSigned v 4 rep 8

theorem test_encode_rows :
    row (-11) = [.range, .range, .pattern 0b0101 true, .pattern 0b1101 true, .pattern 0b0101 true] ∧
    row (-10) = [.range, .range, .pattern 0b0110 true, .pattern 0b1110 true, .pattern 0b1010 false] ∧
    row (-8) = [.range, .range, .pattern 0b1000 false, .pattern 0b0000 false, .pattern 0b1000 false] ∧
    row (-7) = [.pattern 0b1111 false, .pattern 0b1000 false, .pattern 0b1001 false, .pattern 0b0001 false,
      .pattern 0b1001 false] ∧
    row (-1) = [.pattern 0b1001 false, .pattern 0b1110 false, .pattern 0b1111 false, .pattern 0b0111 false,
      .pattern 0b0011 false] ∧
    row 3 = [.pattern 0b0011 false, .pattern 0b0011 false, .pattern 0b0011 false, .pattern 0b1011 false,
      .pattern 0b0111 false] ∧
    row 6 = [.pattern 0b0110 false, .pattern 0b0110 false, .pattern 0b0110 false, .pattern 0b1110 false,
      .pattern 0b1010 true] ∧
    row 8 = [.range, .range, .pattern 0b1000 true, .pattern 0b0000 true, .pattern 0b1000 true] := by decide

theorem test_nb_ranges : [1, 2, 3, 4, 5, 6, 7, 8, 13, 16].map (fun b => (nbMin b, nbMax b)) =
    [(0, 1), (-2, 1), (-2, 5), (-10, 5), (-10, 21), (-42, 21), (-42, 85), (-170, 85), (-2730, 5461),
     (-43690, 21845)] := by decide

/- The ports (end of P3), RESET, idle, withFetchWord -/

def port (x : Interaction) (s : State) : Seen := seen (step { s with pending := [x] })

theorem test_read_port_last : port (.readByte 1) (at_ 64 none [0xFF, 0x80] 0 0 true) =
    some ([0xFF, 0x80], 0, 0, true, some (.byte true 0x80)) := by decide
theorem test_read_port_above : port (.readByte 2) (at_ 64 none [0xFF, 0x80] 0 0 true) =
    some ([0xFF, 0x80], 0, 0, true, some (.byte false 0x00)) := by decide
theorem test_status_port : port .readStatus (at_ 64 none [] 0xB4 6 true) =
    some ([], 0xB4, 6, true, some (.statusWord 0xB40E)) := by decide
theorem test_outLen_port : port .readOutLen (at_ 64 none [1, 2, 3] 0 0 false) =
    some ([1, 2, 3], 0, 0, false, some (.outLen 3)) := by decide
theorem test_reset : port .reset (at_ 64 none [1, 2, 3] 0xB4 6 true) = some ([], 0, 0, false, none) := by decide
theorem test_withFetchWord : seen (step (State.reset.withFetchWord 16 0x0803)) =
    some ([0x00], 0, 0, false, ok false 0) := by decide                                              -- V-ILL-12

/- The assembler on lines of 95_test_vectors.md -/

theorem test_asm_line : readLine ['w', 's', 'i', 'g', '.', 'b', 'i', ' ', '-', '1', '2', '3', ',', ' ', '1', '3', ',', ' ',
    '1', '2', '7', ' ', ';', ' ', 'L', '1'] = some (some (.wsig .bi (-123) 13 127)) := by decide
theorem test_asm_words :
    assemble 64 (.wsig .bi (-123) 13 127) = some { cw := 0x0D34, data := 0xFFFFFFFFFFFFFF85, bias := 0x7F } ∧
    assemble 64 (.wuns 0x1FF 8) = some { cw := 0x0803, data := 0x1FF, bias := 0 } ∧
    assemble 64 (.wuns 1 128) = none ∧ assemble 8 (.wbit 256) = none := by decide
theorem test_asm_text : assembleText 64 [['a', 'b', 'y', 't', 'e', ' ', '0', 'x', 'C', '3'], [';', 'x'], [],
    ['f', 'i', 'n'], ['(', 'w', 'o', 'r', 'd', ')', ' ', '0', 'x', '7', 'F', '0', '3']] =
    some [.command { cw := 0x0002, data := 0xC3, bias := 0 }, .command { cw := 0x0006, data := 0, bias := 0 },
      .command { cw := 0x7F03, data := 0, bias := 0 }] := by decide
theorem test_asm_refuses : readLine ['w', 'b', 'i', 't'] = none ∧ readLine ['n', 'o', 'p'] = none := by decide

/- Witnesses: concrete states and operands that meet the hypotheses of the obligations, each clause at a boundary -/

/-- An open writer with three bits pending. -/
def sMid : State := at_ 64 none [] 0xA0 3 false
/-- A finalized writer. -/
def sFin : State := at_ 64 none [0x80] 0 0 true
/-- A full buffer of capacity 1 with seven bits pending: the next bit would seal past it. -/
def sFull : State := at_ 64 (some 1) [0x11] 0xFE 7 false
/-- A full buffer of capacity 1 with six bits pending: one more bit fits, two do not. -/
def sBrim : State := at_ 64 (some 1) [0x11] 0xFC 6 false
/-- An 8-bit block with an empty buffer of capacity 1. -/
def sSmall : State := at_ 8 (some 1) [] 0 0 false

theorem inv_reset : StateInv State.reset := ⟨by decide, by decide, by decide, by decide, by intro c h; cases h⟩
theorem inv_mid : StateInv sMid := ⟨by decide, by decide, by decide, by decide, by intro c h; cases h⟩
theorem inv_fin : StateInv sFin := ⟨by decide, by decide, by decide, by decide, by intro c h; cases h⟩
theorem inv_full : StateInv sFull := ⟨by decide, by decide, by decide, by decide, by intro c h; cases h; decide⟩
theorem inv_brim : StateInv sBrim := ⟨by decide, by decide, by decide, by decide, by intro c h; cases h; decide⟩
theorem inv_small : StateInv sSmall := ⟨by decide, by decide, by decide, by decide, by intro c h; cases h; decide⟩

theorem room_of {k : Nat} {s : State} (h : capOk k s = true) : HasRoom k s := (capOk_iff k s).mp h
theorem noRoom_of {k : Nat} {s : State} (h : capOk k s = false) : ¬ HasRoom k s := by
  rw [← capOk_iff, h]; decide

theorem witness_interactions :
    ({ sMid with pending := [.reset] } : State).pending = .reset :: [] ∧ State.reset.pending = [] ∧
    ({ sFull with pending := [.readStatus] } : State).pending = .readStatus :: [] ∧
    ({ sFull with pending := [.readOutLen] } : State).pending = .readOutLen :: [] := by decide

/-- The read port: the last sealed byte, and the first address above it. -/
theorem witness_readPort : StateInv { sFull with pending := [.readByte 0] } ∧ 0 < sFull.outLen ∧
    StateInv { sFull with pending := [.readByte 1] } ∧ sFull.outLen ≤ 1 :=
  ⟨⟨by decide, by decide, by decide, by decide, by intro c h; cases h; decide⟩, by decide,
   ⟨by decide, by decide, by decide, by decide, by intro c h; cases h; decide⟩, by decide⟩

theorem witness_decoded : decode { cw := 0x4003, data := 7, bias := 0 } = .ok (.wuns 64 7) ∧
    decodeTableWord 16 0x0006 = some .fin ∧
    decode { cw := 0x0034, data := 7, bias := 8 } = .ok (.wsigBi 0 7 8) := by decide

/-- Each condition (a) to (e) of R98, alone. -/
theorem witness_illegalWords : illegalWord 0x8001 ∧ illegalWord 0x0081 ∧ illegalWord 0x0000 ∧ illegalWord 0x0007 ∧
    illegalWord 0x0013 ∧ illegalWord 0x0054 ∧ illegalWord 0x0106 ∧ ¬ illegalWord 0x7F45 :=
  ⟨by decide, by decide, by decide, by decide, by decide, by decide, by decide, by decide⟩

/-- A width W + 1 at W = 64: of a WUNS on an open writer, and of an ENC. -/
theorem witness_wideWords : ¬ illegalWord 0x4103 ∧ sMid.params.w < bitsField 0x4103 ∧ sMid.fin = false ∧
    ¬ illegalWord 0x4145 ∧ sMid.params.w < bitsField 0x4145 ∧ opField 0x4145 = 5 := by decide

theorem witness_ignoredBus : ∀ b : BitVec 7, (0x0424 : BitVec 16) ≠ withBits 0x0034 b ∧
    (0x0424 : BitVec 16) ≠ withBits 0x0035 b := by decide +kernel

/-- The bounds of a literal at W = 8, on both sides, and of a width. -/
theorem witness_assembler : (8 ≤ 8 ∧ 8 ≤ 64) ∧ ((-2 ^ (8 - 1) : Int) ≤ -128 ∧ (255 : Int) ≤ 2 ^ 8 - 1) ∧
    ((-129 : Int) < -2 ^ (8 - 1) ∧ (2 ^ 8 - 1 : Int) < 256) ∧ ((-1 : Int) < 0 ∧ (127 : Int) < 128) ∧
    (0xFFFF : Int) < 0x10000 := by decide

/-- A bus of W = 8, and two words that agree on its lines. -/
theorem witness_operandWidth : (8 ≤ 8 ∧ 8 ≤ 64) ∧ sSmall.params.Legal ∧
    (0x1C8 : Word).toNat % 2 ^ sSmall.params.w = (0xC8 : Word).toNat % 2 ^ sSmall.params.w := by decide

theorem witness_reachableFinalized : ∃ s, Reachable s ∧ s.fin = true ∧
    ∃ t, step s = .next t ∧ ∀ rest, s.pending ≠ .reset :: rest :=
  ⟨_, .step (.start Params.standard [.command { cw := 0x0006, data := 0, bias := 0 }] (by decide)) rfl, rfl, _, rfl,
    by intro rest h; cases h⟩

theorem witness_invariantStep : StateInv sFull ∧ (∃ t, step sFull = .next t) ∧ ∃ t, exec (.wuns 7 1) sMid = .next t :=
  ⟨inv_full, ⟨_, rfl⟩, ⟨_, rfl⟩⟩

theorem witness_legalParams : (Params.mk 8 (some 0)).Legal ∧ (Params.mk 64 none).Legal := by decide

/-- One step of a read, with a sealed byte to keep. -/
theorem witness_sealedBytes : StateInv sFull ∧ (∀ x ∈ sFull.pending.take 1, x ≠ .reset) ∧
    (∃ t, Host.Core.run Sys2Proof.core 1 sFull = .next t) ∧ 0 < sFull.outLen :=
  ⟨inv_full, by decide, ⟨_, rfl⟩, by decide⟩

theorem witness_finTransitions :
    (∃ t, step { State.reset with pending := [.command { cw := 0x0006, data := 0, bias := 0 }] } = .next t ∧
      t.fin = true) ∧ (∃ t, step { sFin with pending := [.reset] } = .next t ∧ t.fin = false) ∧
    ∃ t r, step { sFin with pending := [.command { cw := 0x0001, data := 1, bias := 0 }] } = .next t ∧
      t.replies = sFin.replies ++ [.response r] ∧ (Instr.wbit 1).isWrite = true :=
  ⟨⟨_, rfl, rfl⟩, ⟨_, rfl, rfl⟩, ⟨_, _, rfl, rfl, rfl⟩⟩

/-- The run WSIG.SM -5 in 4 bits, FIN: it is complete, and its commands placed the bits 1101 (41_signed_encoder.md R170). -/
theorem witness_completeRun :
    let q : List Interaction := [.command { cw := 0x0404, data := -5, bias := 0 }, .command { cw := 0x0006, data := 0, bias := 0 }]
    Params.standard.Legal ∧ (∀ x ∈ q, x ≠ .reset) ∧
    ∃ t, Host.Core.run Sys2Proof.core q.length (State.afterReset Params.standard q) = .next t ∧ Complete q t ∧
      bitsPlaced 64 q t.replies = [true, true, false, true] ∧ t.output = [0xD0] :=
  ⟨by decide, by decide, _, rfl, ⟨⟨_, rfl, rfl⟩, _, rfl, rfl⟩, by decide, by decide⟩

/-- An error response, and a truncated one, to a command. -/
theorem witness_responses :
    (∃ t r, step { sFull with pending := [.command { cw := 0x0001, data := 1, bias := 0 }] } = .next t ∧
      t.replies = sFull.replies ++ [.response r] ∧ r.status ≠ .ok) ∧
    (∃ t r, step { sMid with pending := [.command { cw := 0x0424, data := 8, bias := 0 }] } = .next t ∧
      t.replies = sMid.replies ++ [.response r] ∧ r.trunc = true ∧ sMid.params.bufCap = none) :=
  ⟨⟨_, _, rfl, rfl, by decide⟩, ⟨_, _, rfl, rfl, by decide, rfl⟩⟩

theorem witness_firstError : StateInv { sFull with pending := [.command { cw := 0x0101, data := 2, bias := 0 }] } :=
  ⟨by decide, by decide, by decide, by decide, by intro c h; cases h; decide⟩

theorem witness_placement : sMid.pb.toNat % 2 ^ (8 - sMid.pcnt.toNat) = 0 ∧ 0x1FF < 2 ^ 9 ∧ sMid.params.Legal ∧
    64 ≤ sMid.params.w ∧ State.reset.pcnt = 0 ∧ State.reset.pb = 0 ∧
    [true, false, true, true, false, true, true, true].length = 8 := by decide

theorem witness_alignedField : StateInv sSmall ∧ sSmall.fin = false ∧ sSmall.pcnt = 0 ∧ (8 : BitVec 7).toNat = 8 * 1 ∧
    (8 : BitVec 7).toNat ≤ sSmall.params.w ∧ HasRoom 1 sSmall ∧ StateInv sFull ∧ 7 < 8 * sFull.outLen :=
  ⟨inv_small, rfl, rfl, rfl, by decide, room_of (by decide), inv_full, by decide⟩

theorem witness_wbit : (StateInv sFin ∧ sFin.fin = true) ∧
    (StateInv sMid ∧ sMid.fin = false ∧ 1 < zextW sMid.params.w 2) ∧
    (StateInv sFull ∧ sFull.fin = false ∧ zextW sFull.params.w 1 ≤ 1 ∧ ¬ HasRoom (sealCount 1 sFull) sFull) ∧
    (StateInv sBrim ∧ sBrim.fin = false ∧ zextW sBrim.params.w 1 ≤ 1 ∧ HasRoom (sealCount 1 sBrim) sBrim) :=
  ⟨⟨inv_fin, rfl⟩, ⟨inv_mid, rfl, by decide⟩, ⟨inv_full, rfl, by decide, noRoom_of (by decide)⟩,
   ⟨inv_brim, rfl, by decide, room_of (by decide)⟩⟩

theorem witness_abyte : (StateInv sMid ∧ sMid.fin = false ∧ 255 < zextW sMid.params.w 256) ∧
    (StateInv sBrim ∧ sBrim.fin = false ∧ zextW sBrim.params.w 255 ≤ 255 ∧ ¬ HasRoom 1 sBrim) ∧
    (StateInv sSmall ∧ sSmall.fin = false ∧ zextW sSmall.params.w 255 ≤ 255 ∧ HasRoom 1 sSmall ∧ sSmall.pcnt = 0) :=
  ⟨⟨inv_mid, rfl, by decide⟩, ⟨inv_brim, rfl, by decide, noRoom_of (by decide)⟩,
   ⟨inv_small, rfl, by decide, room_of (by decide), rfl⟩⟩

theorem witness_wuns : (StateInv sSmall ∧ sSmall.fin = false ∧ sSmall.params.w < (9 : BitVec 7).toNat) ∧
    (StateInv sBrim ∧ sBrim.fin = false ∧ (2 : BitVec 7).toNat ≤ sBrim.params.w ∧
      ¬ HasRoom (sealCount (2 : BitVec 7).toNat sBrim) sBrim) ∧
    (StateInv sBrim ∧ sBrim.fin = false ∧ (1 : BitVec 7).toNat ≤ sBrim.params.w ∧
      HasRoom (sealCount (1 : BitVec 7).toNat sBrim) sBrim) :=
  ⟨⟨inv_small, rfl, by decide⟩, ⟨inv_brim, rfl, by decide, noRoom_of (by decide)⟩,
   ⟨inv_brim, rfl, by decide, room_of (by decide)⟩⟩

theorem witness_fin : (StateInv sFin ∧ sFin.fin = true) ∧
    (StateInv sFull ∧ sFull.fin = false ∧ sFull.pcnt ≠ 0 ∧ ¬ HasRoom 1 sFull) ∧
    (StateInv sMid ∧ sMid.fin = false ∧ sMid.pcnt ≠ 0 ∧ HasRoom 1 sMid) ∧
    (StateInv sSmall ∧ sSmall.fin = false ∧ sSmall.pcnt = 0) :=
  ⟨⟨inv_fin, rfl⟩, ⟨inv_full, rfl, by decide, noRoom_of (by decide)⟩,
   ⟨inv_mid, rfl, by decide, room_of (by decide)⟩, ⟨inv_small, rfl, rfl⟩⟩

/-- SM and OC at b = 4: 7 is the last value taken, 8 the first one refused; TC, BI and NB refuse none. -/
theorem witness_refuses : Refuses .sm 8 4 ∧ ¬ Refuses .sm (-7) 4 ∧ Refuses .oc (-8) 4 ∧ ¬ Refuses .oc 7 4 ∧
    ¬ Refuses .tc 8 4 ∧ ¬ Refuses .bi (-300) 4 ∧ ¬ Refuses .nb 6 4 ∧ ¬ Refuses .sm 123 0 := by
  unfold Refuses; decide

/-- The clauses of the WSIG commands: a finalized writer, b = W + 1, a value refused, no room, and a write that completes. -/
theorem witness_signedWrites : (StateInv sFin ∧ sFin.fin = true) ∧
    (StateInv sSmall ∧ sSmall.fin = false ∧ sSmall.params.w < (9 : BitVec 7).toNat) ∧
    (StateInv sSmall ∧ (4 : BitVec 7).toNat ≤ sSmall.params.w ∧ sextW sSmall.params.w 0xF8 = -8 ∧ Refuses .oc (-8) 4) ∧
    (StateInv sBrim ∧ sBrim.fin = false ∧ ¬ HasRoom (sealCount (2 : BitVec 7).toNat sBrim) sBrim ∧
      sextW sBrim.params.w 1 = 1 ∧ ¬ Refuses .sm 1 2) ∧
    (StateInv sSmall ∧ (8 : BitVec 7).toNat ≤ sSmall.params.w ∧ HasRoom (sealCount (8 : BitVec 7).toNat sSmall) sSmall ∧
      sextW sSmall.params.w 0x81 = -127 ∧ ¬ Refuses .sm (-127) 8 ∧ ¬ Refuses .oc (-127) 8 ∧ ¬ Refuses .tc (-127) 8 ∧
      ¬ Refuses .bi (-127) 8 ∧ ¬ Refuses .nb (-127) 8) := by
  refine ⟨⟨inv_fin, rfl⟩, ⟨inv_small, rfl, by decide⟩, ⟨inv_small, by decide, by decide, ?_⟩,
    ⟨inv_brim, rfl, noRoom_of (by decide), by decide, ?_⟩, ⟨inv_small, by decide, room_of (by decide), by decide, ?_⟩⟩
  all_goals unfold Refuses; decide

theorem witness_signedEncodes : sSmall.params.Legal ∧ sSmall.params.w < (9 : BitVec 7).toNat ∧
    (8 : BitVec 7).toNat ≤ sSmall.params.w ∧ Refuses .sm (-128) 8 ∧ ¬ Refuses .nb (-128) 8 ∧
    (Instr.encNb 8 0x80).isWrite = false ∧ Instr.encNb 8 0x80 ≠ .fin ∧ sSmall.params = (issued [] sSmall).params := by
  unfold Refuses; decide

theorem witness_wbitsThenFin : (Params.mk 8 (some 1)).Legal ∧ [true, false, true, true, false, true, true, true].length = 8 * 1 ∧
    ∀ c, (Params.mk 8 (some 1)).bufCap = some c → 1 ≤ c :=
  ⟨by decide, by decide, by intro c h; cases h; decide⟩

theorem witness_widthZero : StateInv sBrim ∧ sBrim.fin = false ∧ StateInv sFin ∧ sFin.fin = true ∧
    Instr.wsigSm 0 0x7B ∈ [Instr.wuns 0 0x7B, .wsigSm 0 0x7B, .wsigOc 0 0x7B, .wsigTc 0 0x7B, .wsigBi 0 0x7B 1,
      .wsigNb 0 0x7B] :=
  ⟨inv_brim, rfl, inv_fin, rfl, by decide⟩

/-- Values on both sides of each bound of the ranges, at b = 4. -/
theorem witness_ranges : Representable .sm 7 4 0 ∧ ¬ Representable .sm 8 4 0 ∧ Representable .oc (-7) 4 0 ∧
    ¬ Representable .oc (-8) 4 0 ∧ Representable .tc (-8) 4 0 ∧ ¬ Representable .tc 8 4 0 ∧ Representable .bi 7 4 8 ∧
    ¬ Representable .bi 8 4 8 ∧ Representable .nb (-10) 4 0 ∧ ¬ Representable .nb 6 4 0 ∧
    sextW 64 0x8000000000000000 < 0 ∧ ((2 : Int) ^ (4 - 1) - 1 < |8|) ∧ (|(-7 : Int)| ≤ 2 ^ (4 - 1) - 1) ∧ 0b1010 < 2 ^ 4 ∧ 0b1010 ≠ 2 ^ (4 - 1) ∧
    0b1010 ≠ 2 ^ 4 - 1 := by decide

end Sys2Proof.Tests
end

section
/-! Proofs of the scope family: what a response says of its command (00_scope.md R7, R14; 60_exceptions.md R220), and how a
command reads its buses (00_scope.md R12; 30_encoding.md R95, R96). -/

namespace Sys2Proof.Machine

/- A step that issues a command -/

theorem step_command {s : State} {c : Command} {rest : List Interaction} (h : s.pending = .command c :: rest) :
    step s = runCommand c (issued rest s) := by
  simp only [step, h]

theorem runCommand_of_ok {c : Command} {i : Instr} (h : decode c = .ok i) (s : State) : runCommand c s = exec i s := by
  simp only [runCommand, h]

theorem runCommand_of_error {c : Command} {e : Illegal} (h : decode c = .error e) (s : State) :
    runCommand c s = .next (raise .errIllegal s) := by
  simp only [runCommand, h]

/- The response of a command that ended -/

/-- The last reply after an error is that error's response, whatever came before. -/
theorem response_of_raise {e : Status} {s : State} {q : List Reply} {r : Response}
    (h : (raise e s).replies = q ++ [.response r]) : r = { status := e, trunc := false, result := 0 } := by
  have hlast := (List.append_inj' h rfl).2
  simpa using hlast.symm

theorem status_of_respond {tr : Bool} {n : Nat} {s : State} {q : List Reply} {r : Response}
    (h : (respond tr n s).replies = q ++ [.response r]) : r.status = .ok := by
  have hlast := (List.append_inj' h rfl).2
  simp only [List.cons.injEq, Reply.response.injEq, and_true] at hlast
  rw [← hlast]

theorem raise_inj {e e' : Status} {s : State} : raise e s = raise e' s ↔ e = e' := by
  constructor
  · intro h
    have hr := response_of_raise (q := s.replies) (congrArg State.replies h)
    exact (congrArg Response.status hr).symm
  · exact congrArg (raise · s)

theorem respond_ne_raise {e : Status} (he : e ≠ .ok) (tr : Bool) (n : Nat) (s t : State) : respond tr n t ≠ raise e s :=
  fun h => he (status_of_respond (q := s.replies) (congrArg State.replies h))

/-- A command whose response is not OK ended in `raise` (00_scope.md R14): of the ways to end, the others answer OK. -/
theorem Ends.eq_raise {i : Instr} {s t : State} {r : Response} (h : Ends i s t)
    (ht : t.replies = s.replies ++ [.response r]) (hr : r.status ≠ .ok) : t = raise r.status s := by
  cases h with
  | raised e _ => rw [response_of_raise ht]
  | answered _ _ _ _ => exact absurd (status_of_respond ht) hr
  | placed _ _ _ _ _ _ _ => exact absurd (status_of_respond ht) hr
  | sealed _ _ _ _ _ => exact absurd (status_of_respond ht) hr
  | closed _ _ _ => exact absurd (status_of_respond ht) hr

theorem runCommand_eq_raise {c : Command} {s t : State} {r : Response} (h : runCommand c s = .next t)
    (ht : t.replies = s.replies ++ [.response r]) (hr : r.status ≠ .ok) : t = raise r.status s := by
  cases hd : decode c with
  | error e =>
    rw [runCommand_of_error hd] at h
    cases h
    rw [response_of_raise ht]
  | ok i =>
    rw [runCommand_of_ok hd] at h
    obtain ⟨u, hu, hends⟩ := exec_cases i s
    cases h.symm.trans hu
    exact hends.eq_raise ht hr

/- ERR_FULL, and the room it wants -/

theorem hasRoom_of_unbounded {s : State} (h : s.params.bufCap = none) (k : Nat) : HasRoom k s := by
  intro c hc
  rw [h] at hc
  cases hc

theorem writeSigned_ne_errFull {rep : Rep} {b : BitVec 7} {d k : Word} {s : State} (h : HasRoom (sealCount b.toNat s) s) :
    writeSigned rep b d k s ≠ raise .errFull s := by
  unfold writeSigned
  simp only [bitsCount, (capOk_iff _ s).mpr h, Bool.not_true, Bool.false_eq_true, if_false]
  split
  · simp [raise_inj]
  · split
    · simp [raise_inj]
    · split
      · simp [raise_inj]
      · simp [respond_ne_raise]

theorem encodeOnly_ne_errFull (rep : Rep) (b : BitVec 7) (d k : Word) (s : State) :
    encodeOnly rep b d k s ≠ raise .errFull s := by
  unfold encodeOnly
  split
  · simp [raise_inj]
  · split
    · simp [raise_inj]
    · simp [respond_ne_raise]

/-- The seal count of FIN, in the words of R227 and in those of R129. -/
theorem sealsIn_fin (s : State) : Instr.fin.sealsIn s = if s.pcnt = 0 then 0 else 1 := by
  have h : 0 < s.pcnt.toNat ↔ s.pcnt ≠ 0 := Nat.pos_iff_ne_zero.trans (not_congr (BitVec.toNat_inj (y := 0)))
  simp only [Instr.sealsIn, h, ite_not]

/-- ERR_FULL has its cause: the bytes the command would seal do not fit (60_exceptions.md R227). -/
theorem exec_ne_errFull {i : Instr} {s : State} (hroom : HasRoom (i.sealsIn s) s) :
    exec i s ≠ .next (raise .errFull s) := by
  have hcap := (capOk_iff _ s).mpr hroom
  cases i with
  | wbit d =>
    change capOk (sealCount 1 s) s = true at hcap
    simp only [exec, execWbit, hcap, Bool.not_true, Bool.false_eq_true, if_false]
    split_ifs <;> simp [raise_inj, respond_ne_raise]
  | abyte d =>
    change capOk 1 s = true at hcap
    simp only [exec, execAbyte, hcap, Bool.not_true, Bool.false_eq_true, if_false]
    split_ifs <;> simp [raise_inj, respond_ne_raise]
  | wuns b d =>
    change capOk (sealCount (bitsCount b) s) s = true at hcap
    simp only [exec, execWuns, hcap, Bool.not_true, Bool.false_eq_true, if_false]
    split_ifs <;> simp [raise_inj, respond_ne_raise]
  | wsigSm b d | wsigOc b d | wsigTc b d | wsigBi b d k | wsigNb b d =>
    exact fun h => writeSigned_ne_errFull hroom (Host.Outcome.next.inj h)
  | encSm b d | encOc b d | encTc b d | encBi b d k | encNb b d =>
    exact fun h => encodeOnly_ne_errFull _ _ _ _ _ (Host.Outcome.next.inj h)
  | fin =>
    rw [sealsIn_fin] at hcap
    simp only [exec, execFin, hcap, Bool.not_true, Bool.false_eq_true, if_false]
    split_ifs <;> simp [respond_ne_raise]

theorem runCommand_errFull_noRoom {c : Command} {s : State} (h : runCommand c s = .next (raise .errFull s)) :
    ∃ i, decode c = .ok i ∧ ¬ HasRoom (i.sealsIn s) s := by
  cases hd : decode c with
  | error e =>
    rw [runCommand_of_error hd, Host.Outcome.next.injEq, raise_inj] at h
    cases h
  | ok i =>
    rw [runCommand_of_ok hd] at h
    exact ⟨i, rfl, fun hroom => exec_ne_errFull hroom h⟩

/- The operands, read at the width of the bus -/

/-- `sext_W` is the two's complement value of the low W lines. -/
theorem sextW_eq_toInt (w : Nat) (x : Word) : sextW w x = (x.setWidth w).toInt := by
  have hmsb : (x.setWidth w).msb = (zextW w x).testBit (w - 1) := by
    rw [BitVec.msb_eq_getLsbD_last, ← BitVec.testBit_toNat, BitVec.toNat_setWidth, zextW]
  rw [BitVec.toInt_eq_msb_cond, hmsb, BitVec.toNat_setWidth]
  rfl

theorem sextW_congruent (w : Nat) (x : Word) : (2 : Int) ^ w ∣ sextW w x - x.toNat := by
  have h := Int.dvd_bmod_sub_self (x := (x.toNat : Int)) (m := 2 ^ w)
  rw [sextW_eq_toInt, BitVec.toInt_setWidth]
  exact_mod_cast h

theorem sextW_bounds (w : Nat) (x : Word) : -2 ^ (w - 1) ≤ sextW w x ∧ sextW w x ≤ 2 ^ (w - 1) - 1 := by
  rw [sextW_eq_toInt]
  exact ⟨BitVec.le_toInt _, Int.le_sub_one_of_lt BitVec.toInt_lt⟩

theorem sextW_congr {w : Nat} {x y : Word} (h : zextW w x = zextW w y) : sextW w x = sextW w y := by
  unfold sextW
  rw [h]

/- A command sees its buses through `zext_W` and `sext_W` only -/

theorem writeSigned_congr {s : State} {d d' k k' : Word} (hd : zextW s.params.w d = zextW s.params.w d')
    (hk : zextW s.params.w k = zextW s.params.w k') (rep : Rep) (b : BitVec 7) :
    writeSigned rep b d k s = writeSigned rep b d' k' s := by
  simp only [writeSigned, sextW_congr hd, sextW_congr hk]

theorem encodeOnly_congr {s : State} {d d' k k' : Word} (hd : zextW s.params.w d = zextW s.params.w d')
    (hk : zextW s.params.w k = zextW s.params.w k') (rep : Rep) (b : BitVec 7) :
    encodeOnly rep b d k s = encodeOnly rep b d' k' s := by
  simp only [encodeOnly, sextW_congr hd, sextW_congr hk]

/-- The five WSIG are one meaning: only BI's encoding looks at the bias (41_signed_encoder.md R170). -/
theorem exec_wsigOf (rep : Rep) (b : BitVec 7) (d k : Word) (s : State) :
    exec (wsigOf rep b d k) s = .next (writeSigned rep b d k s) := by
  cases rep <;> rfl

/-- The five ENC are one meaning, as the five WSIG are (41_signed_encoder.md R175). -/
theorem exec_encOf (rep : Rep) (b : BitVec 7) (d k : Word) (s : State) :
    exec (encOf rep b d k) s = .next (encodeOnly rep b d k s) := by
  cases rep <;> rfl

/-- No command sees a bus line above W (00_scope.md R12, 30_encoding.md R95, R96). -/
theorem runCommand_congr {s : State} {d d' k k' : Word} (cw : BitVec 16)
    (hd : zextW s.params.w d = zextW s.params.w d') (hk : zextW s.params.w k = zextW s.params.w k') :
    runCommand { cw := cw, data := d, bias := k } s = runCommand { cw := cw, data := d', bias := k' } s := by
  simp only [runCommand, decode]
  by_cases hrsv : cwRsv0 cw ≠ 0 ∨ cwRsv1 cw ≠ 0
  · simp only [if_pos hrsv]
  · simp only [if_neg hrsv]
    cases opOf (cwOp cw) with
    | none => rfl
    | some op =>
      cases op with
      | wbit =>
        simp only [decodePlain]
        split_ifs
        · rfl
        · rfl
        · simp only [exec, execWbit, hd]
      | abyte =>
        simp only [decodePlain]
        split_ifs
        · rfl
        · rfl
        · simp only [exec, execAbyte, hd]
      | wuns =>
        split_ifs
        · rfl
        · simp only [exec, execWuns, hd]
      | wsig =>
        simp only [decodeTagged]
        cases repOf (cwRep cw) with
        | none => rfl
        | some rep => simp only [exec_wsigOf, writeSigned_congr hd hk]
      | enc =>
        simp only [decodeTagged]
        cases repOf (cwRep cw) with
        | none => rfl
        | some rep => simp only [exec_encOf, encodeOnly_congr hd hk]
      | fin => rfl

end Sys2Proof.Machine

namespace Sys2Proof.Proofs

open Sys2Proof.Machine

/-- Settles O23: a command that does not answer OK ended in `raise`, which adds its response and nothing else. -/
theorem anErrorChangesNoState : Obligations.AnErrorChangesNoState := by
  intro s t c rest r hp hs ht hr
  rw [step_command hp] at hs
  obtain rfl := runCommand_eq_raise hs ht hr
  have hresp := response_of_raise ht
  exact ⟨congrArg Response.trunc hresp, congrArg Response.result hresp, rfl, rfl, rfl⟩

/-- Settles O25: ERR_FULL needs a command whose bytes do not fit, and every number of bytes fits an unbounded buffer. -/
theorem unboundedBufferNeverRaisesErrFull : Obligations.UnboundedBufferNeverRaisesErrFull := by
  intro s t c rest r hcap hp hs ht hfull
  rw [step_command hp] at hs
  have hraise := runCommand_eq_raise hs ht (by simp [hfull])
  rw [hraise, hfull] at hs
  obtain ⟨i, _, hno⟩ := runCommand_errFull_noRoom hs
  exact hno (hasRoom_of_unbounded hcap _)

/-- Settles O57: `sext_W` is the two's complement value of the low W lines, and every command reads its buses through it and
`zext_W`. -/
theorem operandsAreReadAtTheBusWidth : Obligations.OperandsAreReadAtTheBusWidth := by
  refine ⟨fun w x _ _ => ⟨rfl, sextW_congruent w x, sextW_bounds w x⟩, ?_, rfl, rfl⟩
  intro s rest cw d d' k k' _ hd hk
  rw [step_command rfl, step_command rfl]
  exact runCommand_congr (s := issued rest s) cw hd hk

end Sys2Proof.Proofs
end

section
/-! Proofs of the state family (10_state.md): the reset values (R45), the STATUS word (R41), the encoder without state (R46),
the invariant (R47), and the lifecycle (R39, R40). -/

namespace Sys2Proof.Machine

/- What a step can do, said once -/

theorem step_idle {s : State} (h : s.pending = []) : step s = .next s := by
  simp only [step, h, idle]

theorem step_readByte {s : State} {a : Nat} {rest : List Interaction} (h : s.pending = .readByte a :: rest) :
    step s = .next (serveReadByte a (issued rest s)) := by
  simp only [step, h]

theorem step_readStatus {s : State} {rest : List Interaction} (h : s.pending = .readStatus :: rest) :
    step s = .next (serveReadStatus (issued rest s)) := by
  simp only [step, h]

theorem step_readOutLen {s : State} {rest : List Interaction} (h : s.pending = .readOutLen :: rest) :
    step s = .next (serveReadOutLen (issued rest s)) := by
  simp only [step, h]

theorem step_reset {s : State} {rest : List Interaction} (h : s.pending = .reset :: rest) :
    step s = .next (applyReset (issued rest s)) := by
  simp only [step, h]

/-- How a step ends: nothing was issued; an illegal word raised its error; an instruction was carried out; a port answered; or
RESET. -/
inductive Stepped (s : State) : State → Prop where
  | idle : s.pending = [] → Stepped s s
  | illegal (c : Command) (rest : List Interaction) (e : Illegal) : s.pending = .command c :: rest → decode c = .error e →
      Stepped s (raise .errIllegal (issued rest s))
  | executed (c : Command) (rest : List Interaction) (i : Instr) (t : State) : s.pending = .command c :: rest →
      decode c = .ok i → exec i (issued rest s) = .next t → Ends i (issued rest s) t → Stepped s t
  | port (x : Interaction) (rest : List Interaction) (r : Reply) : s.pending = x :: rest → (∀ c, x ≠ .command c) →
      x ≠ .reset → Stepped s (reply r (issued rest s))
  | reset (rest : List Interaction) : s.pending = .reset :: rest → Stepped s (applyReset (issued rest s))

theorem exec_ends {i : Instr} {s t : State} (h : exec i s = .next t) : Ends i s t := by
  obtain ⟨u, hu, hends⟩ := exec_cases i s
  cases h.symm.trans hu
  exact hends

/-- Every step ends in one of the ways of `Stepped`. -/
theorem step_cases {s t : State} (h : step s = .next t) : Stepped s t := by
  cases hp : s.pending with
  | nil =>
    rw [step_idle hp] at h
    cases h
    exact .idle hp
  | cons x rest =>
    cases x with
    | command c =>
      rw [step_command hp] at h
      cases hd : decode c with
      | error e =>
        rw [runCommand_of_error hd] at h
        cases h
        exact .illegal c rest e hp hd
      | ok i =>
        rw [runCommand_of_ok hd] at h
        exact .executed c rest i t hp hd h (exec_ends h)
    | readByte a =>
      rw [step_readByte hp] at h
      cases h
      exact .port _ rest _ hp nofun nofun
    | readStatus =>
      rw [step_readStatus hp] at h
      cases h
      exact .port _ rest _ hp nofun nofun
    | readOutLen =>
      rw [step_readOutLen hp] at h
      cases h
      exact .port _ rest _ hp nofun nofun
    | reset =>
      rw [step_reset hp] at h
      cases h
      exact .reset rest hp

@[simp] theorem finalize_fin (s : State) : (finalize s).fin = true := by
  rw [finalize_eq]
  split_ifs <;> rfl

theorem State.arch_eq_iff {s t : State} : t.arch = s.arch ↔
    t.out = s.out ∧ t.outLen = s.outLen ∧ t.pb = s.pb ∧ t.pcnt = s.pcnt ∧ t.fin = s.fin := by
  simp only [State.arch, Prod.mk.injEq]

/- The invariant (10_state.md R47) -/

theorem StateInv.wf {s : State} (h : StateInv s) : Memory.wf s.out = true := Memory.wf_of_dense h.dense

/-- The bits below the cursor of an aligned writer are all of PB. -/
theorem StateInv.pb_eq_zero {s : State} (h : StateInv s) (hk : s.pcnt = 0) : s.pb = 0 := by
  have hlow := h.lowBits
  have hlt := s.pb.isLt
  rw [hk] at hlow
  exact BitVec.eq_of_toNat_eq ((Nat.mod_eq_of_lt hlt).symm.trans hlow)

theorem stateInv_afterReset {p : Params} (hp : p.Legal) (q : List Interaction) : StateInv (State.afterReset p q) where
  legal := hp
  dense := rfl
  lowBits := rfl
  finalized := nofun
  capacity := fun _ _ => Nat.zero_le _

/-- The invariant speaks of the parameters and the architectural state alone. -/
theorem StateInv.of_arch {s t : State} (h : StateInv s) (hp : t.params = s.params) (ha : t.arch = s.arch) :
    StateInv t := by
  obtain ⟨hout, hlen, hpb, hk, hf⟩ := State.arch_eq_iff.mp ha
  refine ⟨?_, ?_, ?_, ?_, ?_⟩
  · rw [hp]
    exact h.legal
  · rw [hout, hlen, h.dense]
  · rw [hpb, hk, h.lowBits]
  · rw [hf, hk, hpb]
    exact h.finalized
  · rw [hp, hlen]
    exact h.capacity

theorem StateInv.issued {s : State} (h : StateInv s) (rest : List Interaction) : StateInv (issued rest s) :=
  h.of_arch rfl rfl

theorem StateInv.reply {s : State} (h : StateInv s) (r : Reply) : StateInv (reply r s) := h.of_arch rfl rfl

theorem StateInv.respond {s : State} (h : StateInv s) (tr : Bool) (r : Nat) : StateInv (respond tr r s) :=
  h.of_arch rfl rfl

theorem StateInv.raise {s : State} (h : StateInv s) (e : Status) : StateInv (raise e s) := h.of_arch rfl rfl

theorem StateInv.applyReset {s : State} (h : StateInv s) : StateInv (applyReset s) :=
  (stateInv_afterReset h.legal s.pending).of_arch rfl rfl

/-- Placing bits on an open writer keeps the invariant when the bytes they seal fit. -/
theorem StateInv.placed {s t : State} {bits : List Bool} (h : StateInv s) (hf : s.fin = false) (hpl : Placed s t bits)
    (hroom : HasRoom (sealCount bits.length s) s) : StateInv t where
  legal := hpl.params ▸ h.legal
  dense := hpl.dense
  lowBits := hpl.lowBits
  finalized := fun ht => by simp [hpl.fin, hf] at ht
  capacity := fun c hc => hpl.outLen ▸ hroom c (hpl.params ▸ hc)

/-- Closing a writer keeps the invariant when the pending byte fits: it is sealed, or there is none. -/
theorem StateInv.finalize {s : State} (h : StateInv s) (hroom : HasRoom (if s.pcnt = 0 then 0 else 1) s) :
    StateInv (finalize s) := by
  rw [finalize_eq]
  by_cases hk : s.pcnt = 0
  · rw [if_pos hk]
    exact ⟨h.legal, h.dense, h.lowBits, fun _ => ⟨hk, h.pb_eq_zero hk⟩, h.capacity⟩
  · rw [if_neg hk]
    rw [if_neg hk] at hroom
    refine ⟨h.legal, ?_, rfl, fun _ => ⟨rfl, rfl⟩, hroom⟩
    simp only [Memory.write_dense s.pb h.dense, List.map_append, h.dense, List.range_succ, List.map_cons, List.map_nil]

/-- However a command ends, the invariant stays. -/
theorem Ends.stateInv {i : Instr} {s t : State} (h : Ends i s t) (hs : StateInv s) : StateInv t := by
  cases h with
  | raised e _ => exact hs.raise e
  | answered tr r _ _ => exact hs.respond tr r
  | placed tr r p n _ hf hroom =>
    exact (hs.placed hf (putBits_placed hs.dense hs.lowBits p n) (by rwa [msbBits_length])).respond tr r
  | sealed x _ hf hk hroom =>
    refine (hs.placed hf (sealByte_placed hs.dense hs.lowBits hk x) ?_).respond false 0
    rwa [msbBits_length, sealCount, hk]
  | closed _ _ hroom => exact (hs.finalize hroom).respond false _

/-- However a step ends, the invariant stays. -/
theorem Stepped.stateInv {s t : State} (h : Stepped s t) (hs : StateInv s) : StateInv t := by
  cases h with
  | idle _ => exact hs
  | illegal _ rest _ _ _ => exact (hs.issued rest).raise _
  | executed _ rest _ _ _ _ _ hends => exact hends.stateInv (hs.issued rest)
  | port _ rest r _ _ _ => exact (hs.issued rest).reply r
  | reset rest _ => exact (hs.issued rest).applyReset

theorem Reachable.stateInv {s : State} (h : Reachable s) : StateInv s := by
  induction h with
  | start p q hp => exact stateInv_afterReset hp q
  | step _ hst ih => exact (step_cases hst).stateInv ih

/- The lifecycle (10_state.md R39, R40) -/

/-- A command leaves a finalized writer's architectural state: only errors and answers are left to it. -/
theorem Ends.arch_of_finalized {i : Instr} {s t : State} (h : Ends i s t) (hf : s.fin = true) : t.arch = s.arch := by
  cases h with
  | raised e _ => rfl
  | answered tr r _ _ => rfl
  | placed _ _ _ _ _ hopen _ => simp [hf] at hopen
  | sealed _ _ hopen _ _ => simp [hf] at hopen
  | closed _ hopen _ => simp [hf] at hopen

/-- A step leaves a finalized writer's architectural state, or is a RESET. -/
theorem Stepped.arch_of_finalized {s t : State} (h : Stepped s t) (hf : s.fin = true) :
    t.arch = s.arch ∨ ∃ rest, s.pending = .reset :: rest := by
  cases h with
  | idle _ => exact .inl rfl
  | illegal _ _ _ _ _ => exact .inl rfl
  | executed _ _ _ _ _ _ _ hends => exact .inl (hends.arch_of_finalized hf)
  | port _ _ _ _ _ _ => exact .inl rfl
  | reset rest hp => exact .inr ⟨rest, hp⟩

/-- A command that closes an open writer is a FIN that answered OK. -/
theorem Ends.fin_of_closed {i : Instr} {s t : State} (h : Ends i s t) (hs : s.fin = false) (ht : t.fin = true) :
    i = .fin ∧ ∃ r, t.replies = s.replies ++ [.response r] ∧ r.status = .ok := by
  obtain ⟨_, _, r, hr⟩ := h.frame
  cases h with
  | raised e _ => simp [hs] at ht
  | answered _ _ _ _ => simp [hs] at ht
  | placed tr r p n _ _ _ =>
    obtain ⟨_, hfin, _, _⟩ := putBits_frame p n s
    simp [hfin, hs] at ht
  | sealed x _ _ _ _ => simp [hs] at ht
  | closed hi _ _ => exact ⟨hi, r, hr, status_of_respond hr⟩

/-- A step that closes an open writer is a FIN command that answered OK. -/
theorem Stepped.fin_of_closed {s t : State} (h : Stepped s t) (hs : s.fin = false) (ht : t.fin = true) :
    ∃ c rest r, s.pending = .command c :: rest ∧ decode c = .ok .fin ∧
      t.replies = s.replies ++ [.response r] ∧ r.status = .ok := by
  cases h with
  | idle _ => simp [hs] at ht
  | illegal _ _ _ _ _ => simp [hs] at ht
  | executed c rest i _ hp hd _ hends =>
    obtain ⟨rfl, r, hr, hok⟩ := hends.fin_of_closed hs ht
    exact ⟨c, rest, r, hp, hd, hr, hok⟩
  | port _ _ _ _ _ _ => simp [hs] at ht
  | reset _ _ => simp at ht

/-- A FIN that answers OK leaves a finalized writer. -/
theorem Ends.finalized_of_ok {s t : State} {r : Response} (h : Ends .fin s t) (ht : t.replies = s.replies ++ [.response r])
    (hr : r.status = .ok) : t.fin = true := by
  cases h with
  | raised e he => exact absurd ((congrArg Response.status (response_of_raise ht)).symm.trans hr) he
  | answered _ _ _ hf => exact hf rfl
  | placed _ _ _ _ hw _ _ => cases hw
  | sealed _ hw _ _ _ => cases hw
  | closed _ _ _ => exact finalize_fin s

/-- A WSIG raises ERR_STATE exactly on a finalized writer: the lifecycle check is its first (41_signed_encoder.md R170). -/
theorem writeSigned_eq_errState_iff (rep : Rep) (b : BitVec 7) (d k : Word) (s : State) :
    writeSigned rep b d k s = raise .errState s ↔ s.fin = true := by
  unfold writeSigned
  simp only
  by_cases hf : s.fin = true
  · simp only [hf, if_true]
  · simp only [hf, Bool.false_eq_true, if_false, iff_false]
    split
    · simp [raise_inj]
    · split
      · simp [raise_inj]
      · split
        · simp [raise_inj]
        · simp [respond_ne_raise]

/-- A write command raises ERR_STATE exactly on a finalized writer (60_exceptions.md R223). -/
theorem exec_eq_errState_iff {i : Instr} (hw : i.isWrite = true) (s : State) :
    exec i s = .next (raise .errState s) ↔ s.fin = true := by
  cases i with
  | wbit d =>
    simp only [exec, execWbit]
    split_ifs with hf <;> simp [raise_inj, respond_ne_raise, hf]
  | abyte d =>
    simp only [exec, execAbyte]
    split_ifs with hf <;> simp [raise_inj, respond_ne_raise, hf]
  | wuns b d =>
    simp only [exec, execWuns]
    split_ifs with hf <;> simp [raise_inj, respond_ne_raise, hf]
  | wsigSm b d | wsigOc b d | wsigTc b d | wsigBi b d k | wsigNb b d =>
    exact (Host.Outcome.next.injEq _ _).to_iff.trans (writeSigned_eq_errState_iff _ _ _ _ _)
  | encSm b d | encOc b d | encTc b d | encBi b d k | encNb b d | fin => cases hw

/-- The response of a write command is ERR_STATE exactly on a finalized writer. -/
theorem status_eq_errState_iff {i : Instr} {s t : State} {r : Response} (hw : i.isWrite = true)
    (h : exec i s = .next t) (ht : t.replies = s.replies ++ [.response r]) : r.status = .errState ↔ s.fin = true := by
  rw [← exec_eq_errState_iff hw s, h, Host.Outcome.next.injEq]
  constructor
  · intro hr
    rw [(exec_ends h).eq_raise ht (by simp [hr]), hr]
  · rintro rfl
    rw [response_of_raise ht]

/- The Signed Encoder holds no state (10_state.md R46) -/

/-- The commands that are neither a write nor FIN are the five ENC. -/
theorem eq_encOf_of_not_write {i : Instr} (hw : i.isWrite = false) (hn : i ≠ .fin) :
    ∃ rep b d k, i = encOf rep b d k := by
  cases i with
  | encSm b d => exact ⟨.sm, b, d, 0, rfl⟩
  | encOc b d => exact ⟨.oc, b, d, 0, rfl⟩
  | encTc b d => exact ⟨.tc, b, d, 0, rfl⟩
  | encBi b d k => exact ⟨.bi, b, d, k, rfl⟩
  | encNb b d => exact ⟨.nb, b, d, 0, rfl⟩
  | fin => exact absurd rfl hn
  | wbit _ | abyte _ | wuns _ _ | wsigSm _ _ | wsigOc _ _ | wsigTc _ _ | wsigBi _ _ _ | wsigNb _ _ => cases hw

/-- The reply of an ENC is the same in all states with the same parameters (41_signed_encoder.md R175). -/
theorem encodeOnly_eq_reply {s u : State} (hp : s.params = u.params) (rep : Rep) (b : BitVec 7) (d k : Word) :
    ∃ r, encodeOnly rep b d k s = reply r s ∧ encodeOnly rep b d k u = reply r u := by
  have hw : tooWide b s = tooWide b u := by rw [tooWide, tooWide, hp]
  unfold encodeOnly
  rw [hw, hp]
  by_cases hb : tooWide b u = true
  · rw [if_pos hb, if_pos hb]
    exact ⟨_, rfl, rfl⟩
  · rw [if_neg hb, if_neg hb]
    cases encodeSigned (sextW u.params.w d) (bitsCount b) rep (sextW u.params.w k) with
    | range => exact ⟨_, rfl, rfl⟩
    | pattern p tr =>
      refine ⟨_, ?_, rfl⟩
      simp only [respond, hp]

/- The fields of the STATUS word (10_state.md R41) -/

theorem statusWord_pcnt (s : State) : (statusWord s).extractLsb' 0 3 = s.pcnt :=
  BitVec.extractLsb'_append_eq_right

theorem statusWord_fin (s : State) : (statusWord s).getLsbD 3 = s.fin := by
  unfold statusWord
  rw [BitVec.getLsbD_append, if_neg (by decide), BitVec.getLsbD_append, if_pos (by decide)]
  simp

theorem statusWord_reserved (s : State) : (statusWord s).extractLsb' 4 4 = 0 := by
  unfold statusWord
  rw [BitVec.extractLsb'_append_eq_of_le (by decide), BitVec.extractLsb'_append_eq_of_le (by decide)]
  exact BitVec.extractLsb'_append_eq_right

theorem statusWord_pb (s : State) : (statusWord s).extractLsb' 8 8 = s.pb := by
  unfold statusWord
  rw [BitVec.extractLsb'_append_eq_of_le (by decide), BitVec.extractLsb'_append_eq_of_le (by decide)]
  exact BitVec.extractLsb'_append_eq_left

theorem statusWord_afterReset (p : Params) (q : List Interaction) : statusWord (State.afterReset p q) = 0x0000 := by
  simp only [statusWord, afterReset_pb, afterReset_pcnt, afterReset_fin]
  decide

end Sys2Proof.Machine

namespace Sys2Proof.Proofs

open Sys2Proof.Machine

/-- Settles O15: the reset state meets the invariant and every step keeps it, since every way a command ends does. -/
theorem everyReachableStateMeetsTheInvariant : Obligations.EveryReachableStateMeetsTheInvariant :=
  ⟨fun _ h => h.stateInv, fun _ _ _ hs h => (exec_ends h).stateInv hs⟩

/-- Settles O16: every way a step ends keeps the invariant, and its dense memory is canonical. -/
theorem everyStepKeepsTheInvariant : Obligations.EveryStepKeepsTheInvariant := by
  intro s t hs h
  have ht : StateInv t := (step_cases h).stateInv hs
  exact ⟨ht, ht.wf, hs.wf⟩

/-- Settles O7: the ports only reply, and the STATUS word is the concatenation of its fields. -/
theorem statusPortAnswersTheCursor : Obligations.StatusPortAnswersTheCursor := by
  refine ⟨fun s rest hp => ⟨statusWord s, step_readStatus hp, ?_⟩, fun s rest hp => step_readOutLen hp,
    statusWord_afterReset Params.standard []⟩
  exact ⟨statusWord_pcnt s, statusWord_fin s, statusWord_reserved s, statusWord_pb s⟩

/-- Settles O19: the invariant gives the empty cursor, and a step on a finalized writer changes it by RESET only. -/
theorem finalizedStateIsFrozenUntilReset : Obligations.FinalizedStateIsFrozenUntilReset := by
  intro s hs hf
  obtain ⟨hk, hpb⟩ := hs.stateInv.finalized hf
  refine ⟨hk, hpb, fun t h hno => ?_⟩
  rcases (step_cases h).arch_of_finalized hf with ha | ⟨rest, hp⟩
  · exact ha
  · exact absurd hp (hno rest)

/-- Settles O20: of the ways a step ends only the closing FIN sets FIN and only RESET clears it. -/
theorem onlyFinSetsAndOnlyResetClearsFin : Obligations.OnlyFinSetsAndOnlyResetClearsFin := by
  intro s t h
  refine ⟨fun hs ht => (step_cases h).fin_of_closed hs ht, fun hs ht => ?_, ?_⟩
  · rcases (step_cases h).arch_of_finalized hs with ha | hp
    · obtain ⟨_, _, _, _, hfin⟩ := State.arch_eq_iff.mp ha
      simp [hfin, hs] at ht
    · exact hp
  · intro c rest i r hp hd hr
    rw [step_command hp, runCommand_of_ok hd] at h
    refine ⟨?_, fun hw => status_eq_errState_iff (s := issued rest s) hw h hr⟩
    rintro rfl hok
    exact (exec_ends h).finalized_of_ok hr hok

/-- Settles O45: of the state an ENC reads the parameters only. -/
theorem encoderAnswerDependsOnOperandsOnly : Obligations.EncoderAnswerDependsOnOperandsOnly := by
  intro i s u hw hn hp
  obtain ⟨rep, b, d, k, rfl⟩ := eq_encOf_of_not_write hw hn
  obtain ⟨r, hs, hu⟩ := encodeOnly_eq_reply hp rep b d k
  exact ⟨r, by rw [exec_encOf, hs]; rfl, by rw [exec_encOf, hu]; rfl⟩

/-- Settles O1: the fields of `State.afterReset`, and so of `State.reset`. -/
theorem resetValuesOfEveryRegister : Obligations.ResetValuesOfEveryRegister :=
  ⟨fun p q => ⟨rfl, rfl, rfl, rfl, rfl, statusWord_afterReset p q⟩,
    rfl, rfl, rfl, rfl, rfl, statusWord_afterReset Params.standard []⟩

/-- Settles O17: the invariant holds after RESET at all legal parameters, the standard ones among them. -/
theorem resetMeetsTheInvariant : Obligations.ResetMeetsTheInvariant :=
  ⟨stateInv_afterReset (by decide) [], fun _ q hp => stateInv_afterReset hp q⟩

end Sys2Proof.Proofs
end

section
/-! Proofs of the memory family (20_memory.md): the order of the bits in the output (R60, R61), the read port (R66), and
sealed bytes that stay until RESET (R73). -/

namespace Sys2Proof.Machine

/- A dense memory as a list of bytes -/

theorem Memory.read_of_prefix {m k : Memory} {a : Nat} {x : Byte} (h : m <+: k) (hx : Memory.read m a = some x) :
    Memory.read k a = some x := by
  obtain ⟨rest, rfl⟩ := h
  rw [Memory.read_append, hx, Option.some_or]

/-- A memory of consecutive addresses from b on holds at b + i its i-th byte. -/
theorem Memory.read_consecutive {m : Memory} {b n : Nat} (h : m.map Prod.fst = List.range' b n) (i : Nat) :
    Memory.read m (b + i) = m[i]?.map Prod.snd := by
  induction m generalizing b n i with
  | nil => rfl
  | cons c rest ih =>
    obtain ⟨k, y⟩ := c
    cases n with
    | zero => simp at h
    | succ n =>
      rw [List.map_cons, List.range'_succ, List.cons.injEq] at h
      obtain ⟨rfl, hrest⟩ := h
      cases i with
      | zero => simp [Memory.read]
      | succ i =>
        rw [Memory.read, if_neg (by omega), List.getElem?_cons_succ, ← ih hrest i]
        congr 1
        omega

theorem Memory.length_of_dense {m : Memory} {n : Nat} (h : m.map Prod.fst = List.range n) : m.length = n := by
  simpa using congrArg List.length h

/- The read port (20_memory.md R66) -/

theorem memRead_of_lt {s : State} {i : Nat} {x : Byte} (hi : i < s.outLen) (hx : Memory.read s.out i = some x) :
    memRead i s = (true, x) := by
  simp only [memRead, if_pos hi, hx]

theorem memRead_of_ge {s : State} {i : Nat} (hi : s.outLen ≤ i) : memRead i s = (false, 0) := by
  simp only [memRead, if_neg (Nat.not_lt.mpr hi)]

theorem StateInv.exists_byte {s : State} (h : StateInv s) {i : Nat} (hi : i < s.outLen) :
    ∃ x, Memory.read s.out i = some x :=
  Option.isSome_iff_exists.mp ((Memory.read_dense h.dense i).mpr hi)

/- Sealed bytes stay until RESET (20_memory.md R73) -/

/-- Closing the writer appends the pending byte, or nothing. -/
theorem finalize_grows {s : State} (hd : s.out.map Prod.fst = List.range s.outLen) : s.out <+: (finalize s).out := by
  rw [finalize_eq]
  split_ifs with hk
  · exact List.prefix_refl _
  · exact Memory.write_dense s.pb hd ▸ List.prefix_append _ _

/-- However a command ends, the output only grows at its end. -/
theorem Ends.grows {i : Instr} {s t : State} (h : Ends i s t) (hs : StateInv s) : s.out <+: t.out := by
  cases h with
  | raised e _ => exact List.prefix_refl _
  | answered tr r _ _ => exact List.prefix_refl _
  | placed tr r p n _ _ _ => exact (putBits_placed hs.dense hs.lowBits p n).grows
  | sealed x _ _ hk _ => exact (sealByte_placed hs.dense hs.lowBits hk x).grows
  | closed _ _ _ => exact finalize_grows hs.dense

/-- However a step ends, the output only grows at its end, unless it is a RESET. -/
theorem Stepped.grows {s t : State} (h : Stepped s t) (hs : StateInv s) (hno : ∀ rest, s.pending ≠ .reset :: rest) :
    s.out <+: t.out := by
  cases h with
  | idle _ => exact List.prefix_refl _
  | illegal _ _ _ _ _ => exact List.prefix_refl _
  | executed _ rest _ _ _ _ _ hends => exact hends.grows (hs.issued rest)
  | port _ _ _ _ _ _ => exact List.prefix_refl _
  | reset rest hp => exact absurd hp (hno rest)

/-- A step takes the next interaction off the host's list. -/
theorem Stepped.pending_eq {s t : State} (h : Stepped s t) : t.pending = s.pending.tail := by
  cases h with
  | idle hp => simp [hp]
  | illegal _ _ _ hp _ => simp [hp]
  | executed _ _ _ _ hp _ _ hends =>
    obtain ⟨_, hpend, _⟩ := hends.frame
    simp [hpend, hp]
  | port _ _ _ hp _ _ => simp [hp]
  | reset _ hp => simp [hp]

/-- A run of n + 1 steps that ends is a step and a run of n steps, on any machine. -/
theorem run_succ {M : Host.Core} {n : Nat} {s t : M.State} (h : M.run (n + 1) s = .next t) :
    ∃ u, M.step s = .next u ∧ M.run n u = .next t := by
  cases hu : M.step s with
  | next u =>
    simp only [Host.Core.run, hu] at h
    exact ⟨u, rfl, h⟩
  | fault r => simp [Host.Core.run, hu] at h
  | refused r => simp [Host.Core.run, hu] at h

/-- Over steps none of which is a RESET the invariant stays and the output only grows at its end. -/
theorem run_grows {n : Nat} {s t : State} (hs : StateInv s) (hno : ∀ x ∈ s.pending.take n, x ≠ .reset)
    (h : Host.Core.run Sys2Proof.core n s = .next t) : StateInv t ∧ s.out <+: t.out := by
  induction n generalizing s with
  | zero =>
    cases h
    exact ⟨hs, List.prefix_refl _⟩
  | succ n ih =>
    obtain ⟨u, hu, hrun⟩ := run_succ h
    have hst := step_cases hu
    have hfirst : ∀ rest, s.pending ≠ .reset :: rest := fun rest hp => hno .reset (by simp [hp]) rfl
    have htail : u.pending.take n = (s.pending.take (n + 1)).tail := by
      rw [hst.pending_eq, List.tail_take_eq_take_tail, Nat.add_sub_cancel]
    have hlater : ∀ x ∈ u.pending.take n, x ≠ .reset := fun x hx => hno x (List.mem_of_mem_tail (htail ▸ hx))
    obtain ⟨ht, hgrows⟩ := ih (hst.stateInv hs) hlater hrun
    exact ⟨ht, (hst.grows hs hfirst).trans hgrows⟩

/- Placing bits in a byte (20_memory.md R60) -/

/-- Digit q of a byte is its bit 7 - q. -/
theorem msbBits_byte (x : Byte) {q : Nat} (hq : q < 8) : (msbBits x.toNat 8)[q]? = some (x.getLsbD (7 - q)) := by
  have hlt : q < (msbBits x.toNat 8).length := by rwa [msbBits_length]
  rw [List.getElem?_eq_getElem hlt, msbBits_getElem, BitVec.testBit_toNat]

/-- PB with the bit at the cursor placed (40_accumulator.md R120). -/
def pbWith (b : Bool) (s : State) : Byte := BitVec.ofNat 8 (s.pb.toNat + b.toNat * 2 ^ (7 - s.pcnt.toNat))

theorem placeBit_of_lt {s : State} (b : Bool) (h : s.pcnt.toNat < 7) :
    placeBit b s = { s with pb := pbWith b s, pcnt := s.pcnt + 1 } :=
  if_neg (by omega)

theorem placeBit_of_eq {s : State} (b : Bool) (h : s.pcnt.toNat = 7) :
    placeBit b s = { sealByte (pbWith b s) s with pb := 0, pcnt := 0 } :=
  if_pos (by omega)

theorem pbWith_lowBits {s : State} (b : Bool) (hl : s.pb.toNat % 2 ^ (8 - s.pcnt.toNat) = 0) :
    (pbWith b s).toNat % 2 ^ (7 - s.pcnt.toNat) = 0 := by
  obtain ⟨hlt, hlow, _⟩ := placed_pending b s.pcnt.isLt s.pb.isLt hl
  rwa [pbWith, BitVec.toNat_ofNat, Nat.mod_eq_of_lt hlt]

theorem pbWith_take {s : State} (b : Bool) (hl : s.pb.toNat % 2 ^ (8 - s.pcnt.toNat) = 0) :
    (msbBits (pbWith b s).toNat 8).take (s.pcnt.toNat + 1) = (msbBits s.pb.toNat 8).take s.pcnt.toNat ++ [b] := by
  obtain ⟨hlt, _, htake⟩ := placed_pending b s.pcnt.isLt s.pb.isLt hl
  rwa [pbWith, BitVec.toNat_ofNat, Nat.mod_eq_of_lt hlt]

/-- The bits that fill the pending byte seal it at OUT_LEN, whatever the memory: its digits are those placed before, then
these. -/
theorem foldl_placeBit_seals {s : State} {bits : List Bool} (hl : s.pb.toNat % 2 ^ (8 - s.pcnt.toNat) = 0)
    (hlen : s.pcnt.toNat + bits.length = 8) :
    ∃ x : Byte, Memory.read (bits.foldl (fun u b => placeBit b u) s).out s.outLen = some x ∧
      msbBits x.toNat 8 = (msbBits s.pb.toNat 8).take s.pcnt.toNat ++ bits := by
  induction bits generalizing s with
  | nil =>
    have hk := s.pcnt.isLt
    simp only [List.length_nil] at hlen
    omega
  | cons b bs ih =>
    rw [List.length_cons] at hlen
    have htake := pbWith_take b hl
    rw [List.foldl_cons]
    by_cases hk : s.pcnt.toNat = 7
    · obtain rfl : bs = [] := List.eq_nil_of_length_eq_zero (by omega)
      refine ⟨pbWith b s, ?_, ?_⟩
      · rw [List.foldl_nil, placeBit_of_eq b hk]
        exact Memory.read_write_same _ _ _
      · rwa [hk, List.take_of_length_le (by rw [msbBits_length]), ← hk] at htake
    · have hlt : s.pcnt.toNat < 7 := by omega
      have hsucc : (s.pcnt + 1).toNat = s.pcnt.toNat + 1 := BitVec.toNat_add_of_lt (show s.pcnt.toNat + 1 < 8 by omega)
      rw [placeBit_of_lt b hlt]
      obtain ⟨x, hx, hbits⟩ := ih (s := { s with pb := pbWith b s, pcnt := s.pcnt + 1 })
        (by rw [hsucc, show 8 - (s.pcnt.toNat + 1) = 7 - s.pcnt.toNat by omega]; exact pbWith_lowBits b hl)
        (by rw [hsucc]; omega)
      refine ⟨x, hx, ?_⟩
      rw [hbits, hsucc, htake, List.append_assoc, List.singleton_append]

/- The bit stream (20_memory.md R61) -/

/-- The bits of a list of bytes: bit j is bit 7 - j mod 8 of byte j div 8. -/
theorem flatMap_msbBits_getElem? (m : Memory) (j : Nat) :
    (m.flatMap fun c => msbBits c.2.toNat 8)[j]? = m[j / 8]?.map fun c => c.2.getLsbD (7 - j % 8) := by
  induction m generalizing j with
  | nil => simp
  | cons c rest ih =>
    rw [List.flatMap_cons]
    by_cases hj : j < 8
    · rw [List.getElem?_append_left (by rwa [msbBits_length]), msbBits_byte c.2 hj, Nat.div_eq_of_lt hj,
        Nat.mod_eq_of_lt hj, List.getElem?_cons_zero, Option.map_some]
    · obtain ⟨k, rfl⟩ := Nat.exists_eq_add_of_le (Nat.not_lt.mp hj)
      rw [List.getElem?_append_right (by rw [msbBits_length]; omega), msbBits_length, Nat.add_sub_cancel_left, ih,
        Nat.add_div_left k (by decide), Nat.add_mod_left, List.getElem?_cons_succ]

theorem flatMap_msbBits_length (m : Memory) : (m.flatMap fun c => msbBits c.2.toNat 8).length = 8 * m.length := by
  simp [List.length_flatMap, msbBits_length, Nat.mul_comm]

theorem stream_length {s : State} (hd : s.out.map Prod.fst = List.range s.outLen) :
    s.stream.length = 8 * s.outLen + s.pcnt.toNat := by
  have hk := s.pcnt.isLt
  rw [State.stream, List.length_append, flatMap_msbBits_length, Memory.length_of_dense hd, List.length_take,
    msbBits_length, Nat.min_eq_left hk.le]

/-- A sealed stream bit is a bit of its byte in OUT, from bit 7 down. -/
theorem stream_getElem? {s : State} (hd : s.out.map Prod.fst = List.range s.outLen) {j : Nat} (hj : j < 8 * s.outLen) :
    s.stream[j]? = (Memory.read s.out (j / 8)).map fun x => x.getLsbD (7 - j % 8) := by
  have hread := Memory.read_consecutive (b := 0) (hd.trans List.range_eq_range') (j / 8)
  rw [Nat.zero_add] at hread
  rw [State.stream, List.getElem?_append_left (by rwa [flatMap_msbBits_length, Memory.length_of_dense hd]),
    flatMap_msbBits_getElem?, hread, Option.map_map]
  rfl

/-- Bits placed at an aligned cursor fill the bytes from OUT_LEN on, each from bit 7 down. -/
theorem Placed.read_byte {s t : State} {bits : List Bool} (h : Placed s t bits)
    (hd : s.out.map Prod.fst = List.range s.outLen) (hk : s.pcnt = 0) {j : Nat} (hj : 8 * j + 8 ≤ bits.length) :
    ∃ x, Memory.read t.out (s.outLen + j) = some x ∧ ∀ q, q < 8 → bits[8 * j + q]? = some (x.getLsbD (7 - q)) := by
  have hpcnt : s.pcnt.toNat = 0 := by rw [hk]; rfl
  have hlen : s.outLen + j < t.outLen := by
    rw [h.outLen, hpcnt]
    omega
  obtain ⟨x, hx⟩ := Option.isSome_iff_exists.mp ((Memory.read_dense h.dense _).mpr hlen)
  refine ⟨x, hx, fun q hq => ?_⟩
  have hdiv : (8 * s.outLen + (8 * j + q)) / 8 = s.outLen + j := by omega
  have hmod : (8 * s.outLen + (8 * j + q)) % 8 = q := by omega
  calc bits[8 * j + q]? = t.stream[8 * s.outLen + (8 * j + q)]? := by
        rw [h.stream, List.getElem?_append_right (by rw [stream_length hd]; omega), stream_length hd, hpcnt,
          Nat.add_zero, Nat.add_sub_cancel_left]
    _ = some (x.getLsbD (7 - q)) := by
        rw [stream_getElem? h.dense (by omega), hdiv, hmod, hx, Option.map_some]

/-- Digit 8 j + q of 8 k digits is bit 7 - q of the j-th byte from the top. -/
theorem msbBits_bytes (p : Nat) {k j q : Nat} (hj : j < k) (hq : q < 8) :
    (msbBits p (8 * k))[8 * j + q]? = some ((BitVec.ofNat 8 (p / 2 ^ (8 * (k - 1 - j)))).getLsbD (7 - q)) := by
  have hlt : 8 * j + q < (msbBits p (8 * k)).length := by rw [msbBits_length]; omega
  have hbit : (BitVec.ofNat 8 (p / 2 ^ (8 * (k - 1 - j)))).getLsbD (7 - q) =
      p.testBit (8 * (k - 1 - j) + (7 - q)) := by
    rw [BitVec.getLsbD_ofNat, Nat.testBit_div_two_pow, decide_eq_true (by omega), Bool.true_and, Nat.add_comm]
  rw [List.getElem?_eq_getElem hlt, msbBits_getElem, hbit]
  congr 2
  omega

/-- 8 k bits placed at an aligned cursor are k bytes, the most significant one at the lowest address. -/
theorem Placed.big_endian {s t : State} {p k : Nat} (h : Placed s t (msbBits p (8 * k)))
    (hd : s.out.map Prod.fst = List.range s.outLen) (hk : s.pcnt = 0) {j : Nat} (hj : j < k) :
    Memory.read t.out (s.outLen + j) = some (BitVec.ofNat 8 (p / 2 ^ (8 * (k - 1 - j)))) := by
  obtain ⟨x, hx, hbits⟩ := h.read_byte hd hk (j := j) (by rw [msbBits_length]; omega)
  rw [hx, Option.some_inj]
  refine BitVec.eq_of_getLsbD_eq fun i hi => ?_
  have hbit := (hbits (7 - i) (by omega)).symm.trans (msbBits_bytes p hj (by omega))
  rwa [Option.some_inj, show 7 - (7 - i) = i by omega] at hbit

/-- A WUNS on an open writer, of a legal width and with room, puts the low bits of its value (40_accumulator.md R127). -/
theorem exec_wuns_of_room {s : State} {b : BitVec 7} {n : Nat} (hn : b.toNat = n) (d : Word) (hf : s.fin = false)
    (hw : n ≤ s.params.w) (hroom : HasRoom (sealCount n s) s) :
    exec (.wuns b d) s = .next (respond (truncUnsigned (zextW s.params.w d) n) (zextW s.params.w d % 2 ^ n)
      (putBits (zextW s.params.w d % 2 ^ n) n s)) := by
  subst hn
  have hwide : tooWide b s = false := decide_eq_false (Nat.not_lt.mpr hw)
  simp only [exec, execWuns, bitsCount, hf, hwide, (capOk_iff _ s).mpr hroom, Bool.not_true, Bool.false_eq_true, if_false]

/-- At an aligned cursor 8 k bits seal k bytes. -/
theorem sealCount_aligned {s : State} (hk : s.pcnt = 0) (k : Nat) : sealCount (8 * k) s = k := by
  rw [sealCount, hk]
  simp

end Sys2Proof.Machine

namespace Sys2Proof.Proofs

open Sys2Proof.Machine

/-- Settles O18: over steps without a RESET the output only grows at its end, so every byte of it stays where it is. -/
theorem sealedBytesStayUntilReset : Obligations.SealedBytesStayUntilReset := by
  intro n s t hs hno hrun i hi
  obtain ⟨ht, hgrows⟩ := run_grows hs hno hrun
  obtain ⟨x, hx⟩ := hs.exists_byte hi
  have hx' : Memory.read t.out i = some x := Memory.read_of_prefix hgrows hx
  have hi' : i < t.outLen := (Memory.read_dense ht.dense i).mp (by rw [hx']; rfl)
  exact ⟨x, memRead_of_lt hi hx, memRead_of_lt hi' hx'⟩

/-- Settles O6: the invariant gives the byte below OUT_LEN, and a read of the port only replies. -/
theorem readPortAnswersTheSealedByte : Obligations.ReadPortAnswersTheSealedByte := by
  intro s i rest hs hp
  rw [step_readByte hp]
  constructor
  · intro hi
    obtain ⟨x, hx⟩ := hs.exists_byte hi
    refine ⟨x, hx, ?_⟩
    rw [serveReadByte, memRead_of_lt (s := issued rest s) hi hx]
    rfl
  · intro hi
    rw [serveReadByte, memRead_of_ge (s := issued rest s) hi]
    rfl

/-- Settles O29: the digits of the byte that eight bits seal at an empty cursor are the bits in their order. -/
theorem bitsFillAByteFromBitSevenDown : Obligations.BitsFillAByteFromBitSevenDown := by
  intro s bits hk hpb hlen
  obtain ⟨x, hx, hbits⟩ := foldl_placeBit_seals (s := s) (bits := bits) (by rw [hpb]; rfl) (by rw [hk, hlen]; rfl)
  have hbits' : msbBits x.toNat 8 = bits := by simpa [hk] using hbits
  exact ⟨x, hx, fun q hq => hbits' ▸ msbBits_byte x hq⟩

/-- Settles O30: the stream read byte by byte, the appends of `Placed`, and the bytes of 8 k bits at an aligned cursor. -/
theorem alignedFieldsAreBigEndian : Obligations.AlignedFieldsAreBigEndian := by
  refine ⟨fun s hs j hj => stream_getElem? hs.dense hj, fun s bit x p n hs => ?_, ?_⟩
  · exact ⟨(placeBit_placed hs.dense hs.lowBits bit).stream, sealByte_dense hs.dense x,
      (putBits_placed hs.dense hs.lowBits p n).stream⟩
  · intro s b d k hs hf hk hb hw hroom
    have hplaced := putBits_placed hs.dense hs.lowBits (zextW s.params.w d % 2 ^ (8 * k)) (8 * k)
    rw [msbBits_mod] at hplaced
    refine ⟨_, exec_wuns_of_room hb d hf (hb ▸ hw) (by rwa [sealCount_aligned hk]), ?_,
      fun j hj => hplaced.big_endian hs.dense hk hj⟩
    rw [respond_outLen, hplaced.outLen, msbBits_length]
    exact congrArg (s.outLen + ·) (sealCount_aligned hk k)

end Sys2Proof.Proofs
end

section
/-! Proofs of the encoding family (30_encoding.md): the decoder, the encoder and the opcode table (R91 to R101), illegal words
and widths (R94, R98), the response (R90, R97), the ignored buses (R95, R96), and the assembler (R102). -/

namespace Sys2Proof

open Machine

/- The fields of a packed word, and the word of its fields (30_encoding.md R91) -/

@[simp] theorem cwOp_packCw (op : BitVec 4) (rep : BitVec 3) (b : BitVec 7) : cwOp (packCw op rep b) = op := by
  refine BitVec.eq_of_toNat_eq ?_
  rw [cwOp_toNat, packCw_toNat]
  omega

@[simp] theorem cwRep_packCw (op : BitVec 4) (rep : BitVec 3) (b : BitVec 7) : cwRep (packCw op rep b) = rep := by
  refine BitVec.eq_of_toNat_eq ?_
  rw [cwRep_toNat, packCw_toNat]
  omega

@[simp] theorem cwBits_packCw (op : BitVec 4) (rep : BitVec 3) (b : BitVec 7) : cwBits (packCw op rep b) = b := by
  refine BitVec.eq_of_toNat_eq ?_
  rw [cwBits_toNat, packCw_toNat]
  omega

@[simp] theorem cwRsv0_packCw (op : BitVec 4) (rep : BitVec 3) (b : BitVec 7) : cwRsv0 (packCw op rep b) = 0 := by
  refine BitVec.eq_of_toNat_eq ?_
  rw [cwRsv0_toNat, packCw_toNat]
  change _ = 0
  omega

@[simp] theorem cwRsv1_packCw (op : BitVec 4) (rep : BitVec 3) (b : BitVec 7) : cwRsv1 (packCw op rep b) = 0 := by
  refine BitVec.eq_of_toNat_eq ?_
  rw [cwRsv1_toNat, packCw_toNat]
  change _ = 0
  omega

theorem packCw_fields {cw : BitVec 16} (h0 : cwRsv0 cw = 0) (h1 : cwRsv1 cw = 0) :
    packCw (cwOp cw) (cwRep cw) (cwBits cw) = cw := by
  have h0' : cw.toNat / 128 % 2 = 0 := by rw [← cwRsv0_toNat, h0]; rfl
  have h1' : cw.toNat / 32768 % 2 = 0 := by rw [← cwRsv1_toNat, h1]; rfl
  refine BitVec.eq_of_toNat_eq ?_
  rw [packCw_toNat, cwOp_toNat, cwRep_toNat, cwBits_toNat]
  omega

/-- A command word is its row's pattern with b at bits 14:8 (30_encoding.md R102). -/
theorem withBits_packCw (op : BitVec 4) (rep : BitVec 3) (b : BitVec 7) :
    withBits (packCw op rep 0) b = packCw op rep b := by
  have hlow : (packCw op rep 0).toNat < 2 ^ 8 := by
    rw [packCw_toNat]
    change 0 * 256 + _ + _ < 2 ^ 8
    omega
  refine BitVec.eq_of_toNat_eq ?_
  have hor := Nat.two_pow_add_eq_or_of_lt hlow b.toNat
  have hb := b.isLt
  rw [withBits, BitVec.toNat_or, BitVec.toNat_shiftLeft, BitVec.toNat_setWidth, Nat.shiftLeft_eq, packCw_toNat op rep b,
    Nat.mod_eq_of_lt (show b.toNat < 2 ^ 16 by omega), Nat.mod_eq_of_lt (show b.toNat * 2 ^ 8 < 2 ^ 16 by omega),
    Nat.or_comm, Nat.mul_comm b.toNat, ← hor, packCw_toNat]
  change _ + (0 * 256 + _ + _) = _
  omega

/- The numbers of the operations and of the tags (30_encoding.md R92, R93) -/

/-- The OP number of an operation (30_encoding.md R92). -/
def opCode : Op → BitVec 4
  | .wbit  => 0x1
  | .abyte => 0x2
  | .wuns  => 0x3
  | .wsig  => 0x4
  | .enc   => 0x5
  | .fin   => 0x6

theorem opOf_eq_some {o : BitVec 4} {op : Op} (h : opOf o = some op) : o = opCode op := by
  revert o
  cases op <;> decide

@[simp] theorem opOf_opCode (op : Op) : opOf (opCode op) = some op := by
  cases op <;> rfl

theorem opOf_eq_none {o : BitVec 4} (h : opOf o = none) : o.toNat = 0 ∨ 7 ≤ o.toNat := by
  revert o
  decide

theorem repOf_eq_some {r : BitVec 3} {rep : Rep} (h : repOf r = some rep) : r = repCode rep := by
  revert r
  cases rep <;> decide

@[simp] theorem repOf_repCode (rep : Rep) : repOf (repCode rep) = some rep := by
  cases rep <;> rfl

theorem repOf_eq_none {r : BitVec 3} (h : repOf r = none) : 5 ≤ r.toNat := by
  revert r
  decide

theorem repCode_lt (rep : Rep) : (repCode rep).toNat < 5 := by
  cases rep <;> decide

/- What the decoder answers, said once -/

/-- What the decoder can answer: an error for a word of R98, or the command of one of six forms of word with the buses that
it reads (30_encoding.md R91 to R98). -/
inductive Decoded (c : Command) : Except Illegal Instr → Prop where
  | illegal (e : Illegal) : illegalWord c.cw → Decoded c (.error e)
  | wbit : c.cw = packCw (opCode .wbit) 0 0 → Decoded c (.ok (.wbit c.data))
  | abyte : c.cw = packCw (opCode .abyte) 0 0 → Decoded c (.ok (.abyte c.data))
  | wuns (b : BitVec 7) : c.cw = packCw (opCode .wuns) 0 b → Decoded c (.ok (.wuns b c.data))
  | wsig (rep : Rep) (b : BitVec 7) : c.cw = packCw (opCode .wsig) (repCode rep) b →
      Decoded c (.ok (wsigOf rep b c.data c.bias))
  | enc (rep : Rep) (b : BitVec 7) : c.cw = packCw (opCode .enc) (repCode rep) b →
      Decoded c (.ok (encOf rep b c.data c.bias))
  | fin : c.cw = packCw (opCode .fin) 0 0 → Decoded c (.ok .fin)

/-- R98 in terms of the fields of format C. -/
theorem illegalWord_iff (cw : BitVec 16) : illegalWord cw ↔
    (cwRsv0 cw ≠ 0 ∨ cwRsv1 cw ≠ 0)
    ∨ ((cwOp cw).toNat = 0 ∨ 7 ≤ (cwOp cw).toNat)
    ∨ ((cwOp cw = 1 ∨ cwOp cw = 2 ∨ cwOp cw = 3 ∨ cwOp cw = 6) ∧ cwRep cw ≠ 0)
    ∨ ((cwOp cw = 4 ∨ cwOp cw = 5) ∧ 5 ≤ (cwRep cw).toNat)
    ∨ ((cwOp cw = 1 ∨ cwOp cw = 2 ∨ cwOp cw = 6) ∧ cwBits cw ≠ 0) := by
  have htop : cw.toNat / 32768 = (cwRsv1 cw).toNat := by
    rw [cwRsv1_toNat]
    omega
  simp only [illegalWord, opField, repField, bitsField, htop, ← cwOp_toNat, ← cwRep_toNat, ← cwBits_toNat,
    ← cwRsv0_toNat, ← BitVec.toNat_inj, ne_eq]
  rfl

theorem illegalWord_packCw (op : BitVec 4) (rep : BitVec 3) (b : BitVec 7) : illegalWord (packCw op rep b) ↔
    (op.toNat = 0 ∨ 7 ≤ op.toNat)
    ∨ ((op = 1 ∨ op = 2 ∨ op = 3 ∨ op = 6) ∧ rep ≠ 0)
    ∨ ((op = 4 ∨ op = 5) ∧ 5 ≤ rep.toNat)
    ∨ ((op = 1 ∨ op = 2 ∨ op = 6) ∧ b ≠ 0) := by
  simp [illegalWord_iff]

/-- An accepted word meets no condition of R98. -/
theorem Decoded.not_illegalWord {c : Command} {i : Instr} (h : Decoded c (.ok i)) : ¬ illegalWord c.cw := by
  cases h with
  | wbit hcw | abyte hcw | fin hcw =>
    rw [hcw, illegalWord_packCw]
    decide
  | wuns b hcw =>
    rw [hcw, illegalWord_packCw]
    simp [opCode]
  | wsig rep b hcw | enc rep b hcw =>
    rw [hcw, illegalWord_packCw]
    simp [opCode, repCode_lt]

theorem decodePlain_cases {c : Command} {i : Instr} {op : Op}
    (hcw : packCw (opCode op) (cwRep c.cw) (cwBits c.cw) = c.cw) (hop : op = .wbit ∨ op = .abyte ∨ op = .fin)
    (hi : c.cw = packCw (opCode op) 0 0 → Decoded c (.ok i)) : Decoded c (decodePlain c.cw i) := by
  have hcode : cwOp c.cw = 1 ∨ cwOp c.cw = 2 ∨ cwOp c.cw = 6 := by
    rw [← hcw, cwOp_packCw]
    rcases hop with rfl | rfl | rfl <;> decide
  unfold decodePlain
  split_ifs with hrep hbits
  · exact .illegal _ ((illegalWord_iff _).mpr (.inr (.inr (.inl ⟨hcode.imp_right (.imp_right .inr), hrep⟩))))
  · exact .illegal _ ((illegalWord_iff _).mpr (.inr (.inr (.inr (.inr ⟨hcode, hbits⟩)))))
  · rw [not_not] at hrep hbits
    exact hi (by rw [← hcw, hrep, hbits])

theorem decodeTagged_cases {c : Command} {op : Op} {of : Rep → BitVec 7 → Word → Word → Instr}
    (hcw : packCw (opCode op) (cwRep c.cw) (cwBits c.cw) = c.cw) (hop : op = .wsig ∨ op = .enc)
    (hof : ∀ rep b, c.cw = packCw (opCode op) (repCode rep) b → Decoded c (.ok (of rep b c.data c.bias))) :
    Decoded c (decodeTagged c of) := by
  unfold decodeTagged
  cases hrep : repOf (cwRep c.cw) with
  | none =>
    have hcode : cwOp c.cw = 4 ∨ cwOp c.cw = 5 := by
      rw [← hcw, cwOp_packCw]
      rcases hop with rfl | rfl <;> decide
    exact .illegal _ ((illegalWord_iff _).mpr (.inr (.inr (.inr (.inl ⟨hcode, repOf_eq_none hrep⟩)))))
  | some rep => exact hof rep _ (by rw [← repOf_eq_some hrep, hcw])

/-- The decoder answers in one of the ways of `Decoded`. -/
theorem decode_cases (c : Command) : Decoded c (decode c) := by
  unfold decode
  by_cases hrsv : cwRsv0 c.cw ≠ 0 ∨ cwRsv1 c.cw ≠ 0
  · rw [if_pos hrsv]
    exact .illegal _ ((illegalWord_iff _).mpr (.inl hrsv))
  · rw [if_neg hrsv]
    rw [not_or, not_not, not_not] at hrsv
    obtain ⟨h0, h1⟩ := hrsv
    have hcw := packCw_fields h0 h1
    cases hop : opOf (cwOp c.cw) with
    | none => exact .illegal _ ((illegalWord_iff _).mpr (.inr (.inl (opOf_eq_none hop))))
    | some op =>
      rw [opOf_eq_some hop] at hcw
      cases op with
      | wbit => exact decodePlain_cases hcw (.inl rfl) .wbit
      | abyte => exact decodePlain_cases hcw (.inr (.inl rfl)) .abyte
      | fin => exact decodePlain_cases hcw (.inr (.inr rfl)) .fin
      | wuns =>
        simp only
        split_ifs with hrep
        · refine .illegal _ ((illegalWord_iff _).mpr (.inr (.inr (.inl ⟨?_, hrep⟩))))
          rw [opOf_eq_some hop]
          decide
        · rw [not_not] at hrep
          exact .wuns _ (by rw [← hrep, hcw])
      | wsig => exact decodeTagged_cases hcw (.inl rfl) .wsig
      | enc => exact decodeTagged_cases hcw (.inr rfl) .enc

theorem decoded_of_ok {c : Command} {i : Instr} (h : decode c = .ok i) : Decoded c (.ok i) := h ▸ decode_cases c

theorem decode_of_illegalWord {c : Command} (h : illegalWord c.cw) : ∃ e, decode c = .error e := by
  have hd := decode_cases c
  cases hc : decode c with
  | error e => exact ⟨e, rfl⟩
  | ok i => exact absurd h (hc ▸ hd).not_illegalWord

theorem decode_of_legalWord {c : Command} (h : ¬ illegalWord c.cw) : ∃ i, decode c = .ok i := by
  have hd := decode_cases c
  cases hc : decode c with
  | ok i => exact ⟨i, rfl⟩
  | error e =>
    rw [hc] at hd
    cases hd with
    | illegal _ hi => exact absurd hi h

theorem decode_of_tableWord {nbits w : Nat} {i : Instr} (h : decodeTableWord nbits w = some i) :
    decode (Command.ofBits nbits w) = .ok i := by
  rw [decodeTableWord] at h
  cases hd : decode (Command.ofBits nbits w) with
  | error e => simp [hd, Except.toOption] at h
  | ok j => simpa [hd, Except.toOption] using h

/- The decoder on each form of word -/

theorem decode_wbit {c : Command} (h : c.cw = packCw (opCode .wbit) 0 0) : decode c = .ok (.wbit c.data) := by
  simp [decode, decodePlain, h]

theorem decode_abyte {c : Command} (h : c.cw = packCw (opCode .abyte) 0 0) : decode c = .ok (.abyte c.data) := by
  simp [decode, decodePlain, h]

theorem decode_wuns {c : Command} {b : BitVec 7} (h : c.cw = packCw (opCode .wuns) 0 b) :
    decode c = .ok (.wuns b c.data) := by
  simp [decode, h]

theorem decode_wsig {c : Command} {rep : Rep} {b : BitVec 7} (h : c.cw = packCw (opCode .wsig) (repCode rep) b) :
    decode c = .ok (wsigOf rep b c.data c.bias) := by
  simp [decode, decodeTagged, h]

theorem decode_enc {c : Command} {rep : Rep} {b : BitVec 7} (h : c.cw = packCw (opCode .enc) (repCode rep) b) :
    decode c = .ok (encOf rep b c.data c.bias) := by
  simp [decode, decodeTagged, h]

theorem decode_fin {c : Command} (h : c.cw = packCw (opCode .fin) 0 0) : decode c = .ok .fin := by
  simp [decode, decodePlain, h]

/- The encoder on the tagged families, and what the decoder accepts -/

/-- The encoder gives a WSIG command its tag's number, and drives BIAS for BI alone (30_encoding.md R102). -/
theorem encode_wsigOf (rep : Rep) (b : BitVec 7) (d k : Word) : encode (wsigOf rep b d k) =
    { cw := packCw (opCode .wsig) (repCode rep) b, data := d, bias := if rep = .bi then k else 0 } := by
  cases rep <;> rfl

theorem encode_encOf (rep : Rep) (b : BitVec 7) (d k : Word) : encode (encOf rep b d k) =
    { cw := packCw (opCode .enc) (repCode rep) b, data := d, bias := if rep = .bi then k else 0 } := by
  cases rep <;> rfl

/-- A transaction that the decoder accepts is the encoding of its command on every bus that the command reads. -/
theorem Decoded.encode_agrees {c : Command} {i : Instr} (h : Decoded c (.ok i)) :
    (encode i).cw = c.cw ∧ (i ≠ .fin → (encode i).data = c.data) ∧
    ((∃ b d k, i = .wsigBi b d k ∨ i = .encBi b d k) → (encode i).bias = c.bias) := by
  cases h with
  | wbit hcw | abyte hcw | wuns b hcw => exact ⟨hcw.symm, fun _ => rfl, by simp⟩
  | wsig rep b hcw =>
    rw [encode_wsigOf]
    refine ⟨hcw.symm, fun _ => rfl, ?_⟩
    cases rep <;> simp [wsigOf]
  | enc rep b hcw =>
    rw [encode_encOf]
    refine ⟨hcw.symm, fun _ => rfl, ?_⟩
    cases rep <;> simp [encOf]
  | fin hcw => exact ⟨hcw.symm, fun h => absurd rfl h, by simp⟩

/- BIAS is an operand of the two BI commands alone (30_encoding.md R96) -/

theorem wsigOf_bias {rep : Rep} (h : rep ≠ .bi) (b : BitVec 7) (d k k' : Word) :
    wsigOf rep b d k = wsigOf rep b d k' := by
  cases rep with
  | bi => exact absurd rfl h
  | sm | oc | tc | nb => rfl

theorem encOf_bias {rep : Rep} (h : rep ≠ .bi) (b : BitVec 7) (d k k' : Word) : encOf rep b d k = encOf rep b d k' := by
  cases rep with
  | bi => exact absurd rfl h
  | sm | oc | tc | nb => rfl

/-- A word that is not one of WSIG.BI or ENC.BI decodes to the same instruction with any BIAS. -/
theorem Decoded.decode_of_bias {c : Command} {i : Instr} (h : Decoded c (.ok i))
    (hno : ∀ b : BitVec 7, c.cw ≠ withBits 0x0034 b ∧ c.cw ≠ withBits 0x0035 b) (k : Word) :
    decode { c with bias := k } = .ok i := by
  cases h with
  | wbit hcw => exact decode_wbit hcw
  | abyte hcw => exact decode_abyte hcw
  | wuns b hcw => exact decode_wuns hcw
  | fin hcw => exact decode_fin hcw
  | wsig rep b hcw =>
    have hrep : rep ≠ .bi := by
      rintro rfl
      exact (hno b).1 (hcw.trans (withBits_packCw 0x4 3 b).symm)
    exact (decode_wsig (c := { c with bias := k }) hcw).trans (congrArg _ (wsigOf_bias hrep b _ _ _))
  | enc rep b hcw =>
    have hrep : rep ≠ .bi := by
      rintro rfl
      exact (hno b).2 (hcw.trans (withBits_packCw 0x5 3 b).symm)
    exact (decode_enc (c := { c with bias := k }) hcw).trans (congrArg _ (encOf_bias hrep b _ _ _))

/- The opcode table (30_encoding.md R101) -/

theorem row_masks : ∀ r ∈ opcodeRows,
    r.mask = 0xFFFF ∨ (r.mask = 0x80FF ∧ 3 ≤ opField r.pattern ∧ opField r.pattern ≤ 5) := by decide

theorem row_patterns_legal : ∀ r ∈ opcodeRows, ¬ illegalWord r.pattern := by decide

/-- Two rows of the table differ in a bit that both masks keep. -/
theorem rows_distinguished : ∀ r ∈ opcodeRows, ∀ r' ∈ opcodeRows,
    r.pattern &&& r'.mask = r'.pattern &&& r.mask → r = r' := by decide

theorem opcodeRows_nodup : opcodeRows.Nodup := by decide

/-- No two rows match one word. -/
theorem row_unique {r r' : Row} {cw : BitVec 16} (hr : r ∈ opcodeRows) (hr' : r' ∈ opcodeRows) (h : r.fits cw = true)
    (h' : r'.fits cw = true) : r = r' := by
  refine rows_distinguished r hr r' hr' ?_
  rw [← of_decide_eq_true h, ← of_decide_eq_true h', BitVec.and_assoc, BitVec.and_assoc, BitVec.and_comm r.mask]

/-- The mask of a row with a width field keeps the low byte and the top bit. -/
theorem fields_of_and_mask {cw p : BitVec 16} (h : cw &&& 0x80FF = p) :
    cw.toNat % 256 = p.toNat % 256 ∧ cw.toNat / 32768 = p.toNat / 32768 := by
  have hlow : p.setWidth 8 = cw.setWidth 8 := by
    rw [← h, BitVec.setWidth_and]
    exact BitVec.and_allOnes
  have htop : p.extractLsb' 15 1 = cw.extractLsb' 15 1 := by
    rw [← h, BitVec.extractLsb'_and]
    exact BitVec.and_allOnes
  have hlow' := congrArg BitVec.toNat hlow
  have htop' := congrArg BitVec.toNat htop
  simp only [BitVec.toNat_setWidth, BitVec.extractLsb'_toNat, Nat.shiftRight_eq_div_pow] at hlow' htop'
  omega

/-- A word that a row matches meets no condition of R98: they speak of the bits that the row's mask keeps. -/
theorem not_illegalWord_of_fits {r : Row} {cw : BitVec 16} (hr : r ∈ opcodeRows) (h : r.fits cw = true) :
    ¬ illegalWord cw := by
  have hand : cw &&& r.mask = r.pattern := of_decide_eq_true h
  have hlegal := row_patterns_legal r hr
  rcases row_masks r hr with hm | ⟨hm, hlo, hhi⟩
  · rw [hm] at hand
    rwa [show cw = r.pattern from (BitVec.and_allOnes (x := cw)).symm.trans hand]
  · rw [hm] at hand
    obtain ⟨hlow, htop⟩ := fields_of_and_mask hand
    simp only [illegalWord, opField, repField, bitsField] at hlegal hlo hhi ⊢
    omega

/-- The word that the encoder gives an instruction is matched by the instruction's row. -/
theorem row_fits_encode (i : Instr) : i.row.fits (encode i).cw = true := by
  have h : Laws.FitsItsRow.Statement i := by
    cases i with
    | wbit d => exact Laws.FitsItsRow.wbit d
    | abyte d => exact Laws.FitsItsRow.abyte d
    | wuns b d => exact Laws.FitsItsRow.wuns b d
    | wsigSm b d => exact Laws.FitsItsRow.wsigSm b d
    | wsigOc b d => exact Laws.FitsItsRow.wsigOc b d
    | wsigTc b d => exact Laws.FitsItsRow.wsigTc b d
    | wsigBi b d k => exact Laws.FitsItsRow.wsigBi b d k
    | wsigNb b d => exact Laws.FitsItsRow.wsigNb b d
    | encSm b d => exact Laws.FitsItsRow.encSm b d
    | encOc b d => exact Laws.FitsItsRow.encOc b d
    | encTc b d => exact Laws.FitsItsRow.encTc b d
    | encBi b d k => exact Laws.FitsItsRow.encBi b d k
    | encNb b d => exact Laws.FitsItsRow.encNb b d
    | fin => exact Laws.FitsItsRow.fin
  exact h.2

/-- The one row that matches an accepted word is that of its instruction. -/
theorem rows_of_fits {i : Instr} {cw : BitVec 16} (h : i.row.fits cw = true) :
    opcodeRows.filter (fun r => r.fits cw) = [i.row] := by
  have hi := Laws.FitsItsRow.row_mem i
  rw [← List.perm_singleton, List.perm_ext_iff_of_nodup (opcodeRows_nodup.filter _) (List.nodup_singleton _)]
  intro r
  rw [List.mem_filter, List.mem_singleton]
  constructor
  · rintro ⟨hr, hfits⟩
    exact row_unique hr hi hfits h
  · rintro rfl
    exact ⟨hi, h⟩

/-- No row matches a word of R98. -/
theorem rows_of_illegalWord {cw : BitVec 16} (h : illegalWord cw) : opcodeRows.filter (fun r => r.fits cw) = [] :=
  List.filter_eq_nil_iff.mpr fun _ hr hfits => not_illegalWord_of_fits hr hfits h

end Sys2Proof

namespace Sys2Proof.Machine

/- The response of a command: its buses (30_encoding.md R97), and how often (R90) -/

theorem runCommand_of_illegalWord {c : Command} (h : illegalWord c.cw) (s : State) :
    runCommand c s = .next (raise .errIllegal s) := by
  obtain ⟨e, he⟩ := decode_of_illegalWord h
  exact runCommand_of_error he s

/-- A command ends in a next state with one response more, and leaves the parameters and the host's list. -/
theorem runCommand_frame (c : Command) (s : State) : ∃ t r, runCommand c s = .next t ∧ t.pending = s.pending ∧
    t.params = s.params ∧ t.replies = s.replies ++ [.response r] := by
  cases hd : decode c with
  | error e => exact ⟨_, _, runCommand_of_error hd s, rfl, rfl, rfl⟩
  | ok i =>
    obtain ⟨t, ht, hends⟩ := exec_cases i s
    obtain ⟨hparams, hpending, r, hr⟩ := hends.frame
    exact ⟨t, r, (runCommand_of_ok hd s).trans ht, hpending, hparams, hr⟩

theorem step_total (s : State) : ∃ t, step s = .next t := by
  cases hp : s.pending with
  | nil => exact ⟨_, step_idle hp⟩
  | cons x rest =>
    cases x with
    | command c =>
      obtain ⟨t, _, ht, _⟩ := runCommand_frame c (issued rest s)
      exact ⟨t, (step_command hp).trans ht⟩
    | readByte a => exact ⟨_, step_readByte hp⟩
    | readStatus => exact ⟨_, step_readStatus hp⟩
    | readOutLen => exact ⟨_, step_readOutLen hp⟩
    | reset => exact ⟨_, step_reset hp⟩

/- A width above W (30_encoding.md R98, 60_exceptions.md R224) -/

theorem writeSigned_of_tooWide {s : State} {b : BitVec 7} (hf : s.fin = false) (hw : tooWide b s = true) (rep : Rep)
    (d k : Word) : writeSigned rep b d k s = raise .errWidth s := by
  simp [writeSigned, hf, hw]

theorem encodeOnly_of_tooWide {s : State} {b : BitVec 7} (hw : tooWide b s = true) (rep : Rep) (d k : Word) :
    encodeOnly rep b d k s = raise .errWidth s := by
  simp [encodeOnly, hw]

theorem exec_wuns_of_tooWide {s : State} {b : BitVec 7} (hf : s.fin = false) (hw : tooWide b s = true) (d : Word) :
    exec (.wuns b d) s = .next (raise .errWidth s) := by
  simp [exec, execWuns, hf, hw]

/-- A command whose width field is above W raises ERR_WIDTH, where the lifecycle check does not come first. -/
theorem exec_of_wideWord {c : Command} {i : Instr} {s : State} (h : Decoded c (.ok i))
    (hw : s.params.w < (cwBits c.cw).toNat) (hopen : cwOp c.cw = opCode .enc ∨ s.fin = false) :
    exec i s = .next (raise .errWidth s) := by
  cases h with
  | wbit hcw | abyte hcw | fin hcw =>
    rw [hcw, cwBits_packCw] at hw
    exact absurd hw (Nat.not_lt_zero _)
  | wuns b hcw =>
    rw [hcw, cwBits_packCw] at hw
    rw [hcw, cwOp_packCw] at hopen
    exact exec_wuns_of_tooWide (hopen.resolve_left (by decide)) ((tooWide_iff b s).mpr hw) _
  | wsig rep b hcw =>
    rw [hcw, cwBits_packCw] at hw
    rw [hcw, cwOp_packCw] at hopen
    rw [exec_wsigOf, writeSigned_of_tooWide (hopen.resolve_left (by decide)) ((tooWide_iff b s).mpr hw)]
  | enc rep b hcw =>
    rw [hcw, cwBits_packCw] at hw
    rw [exec_encOf, encodeOnly_of_tooWide ((tooWide_iff b s).mpr hw)]

/- Buses that a command ignores (30_encoding.md R95, R96) -/

theorem runCommand_of_bias {c : Command} (hno : ∀ b : BitVec 7, c.cw ≠ withBits 0x0034 b ∧ c.cw ≠ withBits 0x0035 b)
    (k : Word) (s : State) : runCommand { c with bias := k } s = runCommand c s := by
  by_cases hill : illegalWord c.cw
  · rw [runCommand_of_illegalWord hill, runCommand_of_illegalWord (c := { c with bias := k }) hill]
  · obtain ⟨i, hi⟩ := decode_of_legalWord hill
    rw [runCommand_of_ok hi, runCommand_of_ok ((decoded_of_ok hi).decode_of_bias hno k)]

/- RESULT -/

theorem onBus_lt {w : Nat} (n : Nat) : (onBus w n).toNat < 2 ^ w := by
  rw [onBus, BitVec.toNat_ofNat]
  exact (Nat.mod_le _ _).trans_lt (Nat.mod_lt _ (Nat.two_pow_pos w))

theorem onBus_zero (w : Nat) : onBus w 0 = 0 := by
  rw [onBus, Nat.zero_mod]
  rfl

/-- The last reply after an answer is that answer's response, whatever came before. -/
theorem response_of_respond {tr : Bool} {n : Nat} {s : State} {q : List Reply} {r : Response}
    (h : (respond tr n s).replies = q ++ [.response r]) :
    r = { status := .ok, trunc := tr, result := onBus s.params.w n } := by
  have hlast := (List.append_inj' h rfl).2
  simpa using hlast.symm

/-- However a command ends, RESULT is on the W lines of its bus. -/
theorem Ends.result_lt {i : Instr} {s t : State} {r : Response} (h : Ends i s t)
    (ht : t.replies = s.replies ++ [.response r]) : r.result.toNat < 2 ^ s.params.w := by
  obtain ⟨hparams, _⟩ := h.frame
  cases h with
  | raised e _ =>
    rw [response_of_raise ht]
    exact Nat.two_pow_pos _
  | answered tr n _ _ =>
    rw [response_of_respond ht]
    exact onBus_lt n
  | placed tr n p m _ _ _ =>
    rw [response_of_respond ht, ← hparams]
    exact onBus_lt n
  | sealed x _ _ _ _ =>
    rw [response_of_respond ht]
    exact onBus_lt 0
  | closed _ _ _ =>
    rw [response_of_respond ht, ← hparams]
    exact onBus_lt _

theorem runCommand_result_lt {c : Command} {s t : State} {r : Response} (h : runCommand c s = .next t)
    (ht : t.replies = s.replies ++ [.response r]) : r.result.toNat < 2 ^ s.params.w := by
  cases hd : decode c with
  | error e =>
    rw [runCommand_of_error hd] at h
    cases h
    rw [response_of_raise ht]
    exact Nat.two_pow_pos _
  | ok i =>
    rw [runCommand_of_ok hd] at h
    exact (exec_ends h).result_lt ht

/-- WBIT and ABYTE end in an error, or answer 0 without TRUNC (40_accumulator.md R124, R125). -/
theorem exec_wbit_abyte {i : Instr} (s : State) (hi : ∃ d, i = .wbit d ∨ i = .abyte d) :
    (∃ e, exec i s = .next (raise e s)) ∨ ∃ u, exec i s = .next (respond false 0 u) := by
  obtain ⟨d, rfl | rfl⟩ := hi
  · simp only [exec, execWbit]
    split_ifs
    · exact .inl ⟨_, rfl⟩
    · exact .inl ⟨_, rfl⟩
    · exact .inl ⟨_, rfl⟩
    · exact .inr ⟨_, rfl⟩
  · simp only [exec, execAbyte]
    split_ifs
    · exact .inl ⟨_, rfl⟩
    · exact .inl ⟨_, rfl⟩
    · exact .inl ⟨_, rfl⟩
    · exact .inr ⟨_, rfl⟩
    · exact .inr ⟨_, rfl⟩

theorem response_of_wbit_abyte {i : Instr} {s t : State} {r : Response} (hi : ∃ d, i = .wbit d ∨ i = .abyte d)
    (h : exec i s = .next t) (ht : t.replies = s.replies ++ [.response r]) : r.trunc = false ∧ r.result = 0 := by
  rcases exec_wbit_abyte s hi with ⟨e, he⟩ | ⟨u, hu⟩
  · obtain rfl := Host.Outcome.next.inj (h.symm.trans he)
    rw [response_of_raise ht]
    exact ⟨rfl, rfl⟩
  · obtain rfl := Host.Outcome.next.inj (h.symm.trans hu)
    rw [response_of_respond ht]
    exact ⟨rfl, onBus_zero _⟩

theorem Status.code_le (e : Status) : e.code.toNat ≤ 6 := by
  cases e <;> decide

/- The assembler (30_encoding.md R102) -/

/-- A literal within the bus width is emitted mod 2^W. -/
theorem asmBus_of_mem {w : Nat} (hw : w ≤ 64) {x : Int} (hlo : -2 ^ (w - 1) ≤ x) (hhi : x ≤ 2 ^ w - 1) :
    ∃ d : Word, (d.toNat : Int) = x % 2 ^ w ∧ asmBus w x = some d := by
  refine ⟨_, ?_, if_pos ⟨hlo, hhi⟩⟩
  obtain ⟨hlt, hcast⟩ := emod_pattern x w
  rw [BitVec.toNat_ofNat, Nat.mod_eq_of_lt (hlt.trans_le (Nat.pow_le_pow_right (by decide) hw)), hcast]

theorem asmBus_zero (w : Nat) : asmBus w 0 = some 0 := by
  have hlo : (0 : Int) < 2 ^ (w - 1) := by positivity
  have hhi : (0 : Int) < 2 ^ w := by positivity
  rw [asmBus, if_pos (by constructor <;> omega), Int.zero_emod]
  rfl

theorem asmBus_of_outside {w : Nat} {x : Int} (h : x < -2 ^ (w - 1) ∨ 2 ^ w - 1 < x) : asmBus w x = none :=
  if_neg (by omega)

theorem asmBits_toNat (b : BitVec 7) : asmBits b.toNat = some b := by
  have hb := b.isLt
  rw [asmBits, if_pos (by omega), Int.toNat_natCast, BitVec.ofNat_toNat, BitVec.setWidth_eq]

theorem asmBits_of_outside {b : Int} (h : b < 0 ∨ 127 < b) : asmBits b = none :=
  if_neg (by omega)

/-- A tagged command whose operands are in bounds: its word is the pattern of its row with b at bits 14:8. -/
theorem asmTagged_eq {w : Nat} {rep : Rep} {x y : Int} {d k : Word} (hx : asmBus w x = some d)
    (hy : asmBus w (if rep = .bi then y else 0) = some k) (op : BitVec 4) (b : BitVec 7) :
    asmTagged w op rep x b.toNat y =
      some { cw := withBits (packCw op (repCode rep) 0) b, data := d, bias := k } := by
  rw [withBits_packCw]
  simp [asmTagged, asmBits_toNat, hx, hy]

/-- Where the line writes no bias, BIAS is 0, with any tag. -/
theorem asmTagged_unbiased {w : Nat} {x : Int} {d : Word} (hx : asmBus w x = some d) (op : BitVec 4) (rep : Rep)
    (b : BitVec 7) : asmTagged w op rep x b.toNat 0 =
      some { cw := withBits (packCw op (repCode rep) 0) b, data := d, bias := 0 } :=
  asmTagged_eq hx (by rw [ite_self, asmBus_zero]) op b

theorem asmTagged_of_value_outside {w : Nat} {x : Int} (h : asmBus w x = none) (op : BitVec 4) (rep : Rep) (b y : Int) :
    asmTagged w op rep x b y = none := by
  cases hb : asmBits b <;> simp [asmTagged, hb, h]

theorem asmTagged_of_width_outside {b : Int} (h : asmBits b = none) (w : Nat) (op : BitVec 4) (rep : Rep) (x y : Int) :
    asmTagged w op rep x b y = none := by
  simp [asmTagged, h]

theorem asmTagged_of_bias_outside {w : Nat} {y : Int} (h : asmBus w y = none) (op : BitVec 4) (x b : Int) :
    asmTagged w op .bi x b y = none := by
  cases hb : asmBits b <;> cases hx : asmBus w x <;> simp [asmTagged, hb, hx, h]

theorem assemble_word (w : Nat) (cw : BitVec 16) :
    assemble w (.word cw.toNat) = some { cw := cw, data := 0, bias := 0 } := by
  have hcw := cw.isLt
  rw [assemble, if_pos (by omega), Int.toNat_natCast, BitVec.ofNat_toNat, BitVec.setWidth_eq]

theorem assemble_word_of_outside {cw : Int} (h : cw < 0 ∨ 0xFFFF < cw) (w : Nat) : assemble w (.word cw) = none :=
  if_neg (by omega)

end Sys2Proof.Machine

namespace Sys2Proof.Proofs

open Sys2Proof.Machine

/-- Settles O11: each instruction is encoded as one of the six forms of word. -/
theorem decodeOfEncodeIsTheInstruction : Obligations.DecodeOfEncodeIsTheInstruction := by
  intro i
  cases i with
  | wbit d => exact decode_wbit rfl
  | abyte d => exact decode_abyte rfl
  | wuns b d => exact decode_wuns rfl
  | wsigSm b d => exact decode_wsig (rep := .sm) rfl
  | wsigOc b d => exact decode_wsig (rep := .oc) rfl
  | wsigTc b d => exact decode_wsig (rep := .tc) rfl
  | wsigBi b d k => exact decode_wsig (rep := .bi) rfl
  | wsigNb b d => exact decode_wsig (rep := .nb) rfl
  | encSm b d => exact decode_enc (rep := .sm) rfl
  | encOc b d => exact decode_enc (rep := .oc) rfl
  | encTc b d => exact decode_enc (rep := .tc) rfl
  | encBi b d k => exact decode_enc (rep := .bi) rfl
  | encNb b d => exact decode_enc (rep := .nb) rfl
  | fin => exact decode_fin rfl

/-- Settles O5: the decoder refuses every word of R98, and in an accepted word BITS above W is a width above W. -/
theorem illegalWordsRaiseErrIllegal : Obligations.IllegalWordsRaiseErrIllegal := by
  refine ⟨fun s c rest hp h => (step_command hp).trans (runCommand_of_illegalWord h _), ?_⟩
  intro s c rest hp hlegal hw hopen
  obtain ⟨i, hi⟩ := decode_of_legalWord hlegal
  rw [step_command hp, runCommand_of_ok hi]
  refine exec_of_wideWord (decoded_of_ok hi) (by rwa [cwBits_toNat]) (hopen.imp_left fun h5 => ?_)
  exact BitVec.eq_of_toNat_eq ((cwOp_toNat c.cw).trans h5)

/-- Settles O8: a command ends in one of the ways of `Ends`, each with one response. -/
theorem everyStepAnswersAndEveryCommandOnce : Obligations.EveryStepAnswersAndEveryCommandOnce := by
  refine ⟨step_total, fun s c rest hp => ?_⟩
  rw [step_command hp]
  exact runCommand_frame c (issued rest s)

/-- Settles O9: a row matches the word of its instruction, no other row does, and none matches a word of R98. -/
theorem everyWordIsOneRowOrIllegal : Obligations.EveryWordIsOneRowOrIllegal := by
  refine ⟨by decide, fun c => ⟨fun h => ⟨rows_of_illegalWord h, decode_of_illegalWord h⟩, fun h => ?_⟩⟩
  obtain ⟨i, hi⟩ := decode_of_legalWord h
  obtain ⟨hcw, _, _⟩ := (decoded_of_ok hi).encode_agrees
  exact ⟨i, hi, rows_of_fits (hcw ▸ row_fits_encode i)⟩

/-- Settles O12: each of the six forms of word is the encoding of its command. -/
theorem acceptedWordIsTheEncodingOfItsCommand : Obligations.AcceptedWordIsTheEncodingOfItsCommand :=
  fun _ _ h => (decoded_of_ok h).encode_agrees

/-- Settles O13: with any BIAS such a word decodes alike, and FIN has no operand. -/
theorem ignoredBusesHaveNoEffect : Obligations.IgnoredBusesHaveNoEffect := by
  refine ⟨fun s rest cw d k k' hno => ?_, fun s rest d d' k k' => ?_⟩
  · rw [step_command rfl, step_command rfl]
    exact (runCommand_of_bias (c := { cw := cw, data := d, bias := k }) hno k' _).symm
  · rw [step_command rfl, step_command rfl, runCommand_of_ok (decode_fin rfl), runCommand_of_ok (decode_fin rfl)]
    rfl

/-- Settles O14: a literal in bounds is its value mod 2^W, a width in bounds itself, and the others are refused. -/
theorem assemblerEmitsTheTabledTransaction : Obligations.AssemblerEmitsTheTabledTransaction := by
  intro w _ hw
  refine ⟨fun x hlo hhi => ?_, rfl, assemble_word w, fun x b h => ?_, fun x b h => ?_, fun x b y h => ?_,
    fun cw h => assemble_word_of_outside h w⟩
  · obtain ⟨d, hd, hx⟩ := asmBus_of_mem hw hlo hhi
    refine ⟨d, hd, by rw [assemble, hx]; rfl, by rw [assemble, hx]; rfl, fun b => ?_⟩
    refine ⟨asmTagged_unbiased hx 0x3 .sm b, asmTagged_unbiased hx 0x4 .sm b, asmTagged_unbiased hx 0x4 .oc b,
      asmTagged_unbiased hx 0x4 .tc b, asmTagged_unbiased hx 0x4 .nb b, asmTagged_unbiased hx 0x5 .sm b,
      asmTagged_unbiased hx 0x5 .oc b, asmTagged_unbiased hx 0x5 .tc b, asmTagged_unbiased hx 0x5 .nb b,
      fun y hylo hyhi => ?_⟩
    obtain ⟨k, hk, hy⟩ := asmBus_of_mem hw hylo hyhi
    exact ⟨k, hk, asmTagged_eq (rep := .bi) hx hy 0x4 b, asmTagged_eq (rep := .bi) hx hy 0x5 b⟩
  · have hx := asmBus_of_outside h
    exact ⟨by rw [assemble, hx]; rfl, by rw [assemble, hx]; rfl, asmTagged_of_value_outside hx _ _ _ _,
      fun rep y => ⟨asmTagged_of_value_outside hx _ _ _ _, asmTagged_of_value_outside hx _ _ _ _⟩⟩
  · have hb := asmBits_of_outside h
    exact ⟨asmTagged_of_width_outside hb _ _ _ _ _,
      fun rep y => ⟨asmTagged_of_width_outside hb _ _ _ _ _, asmTagged_of_width_outside hb _ _ _ _ _⟩⟩
  · have hy := asmBus_of_outside h
    exact ⟨asmTagged_of_bias_outside hy _ _ _, asmTagged_of_bias_outside hy _ _ _⟩

/-- Settles O26: an answer goes through `onBus`, an error answers 0. -/
theorem responsesFitTheirBuses : Obligations.ResponsesFitTheirBuses := by
  refine ⟨fun s t c rest r _ hp hs ht => ?_, by decide⟩
  rw [step_command hp] at hs
  refine ⟨runCommand_result_lt (s := issued rest s) hs ht, fun d hd => ?_, r.status.code_le⟩
  have hi : ∃ i, decode c = .ok i ∧ ∃ d, i = .wbit d ∨ i = .abyte d := by
    rcases hd with h | h
    · exact ⟨_, h, d, .inl rfl⟩
    · exact ⟨_, h, d, .inr rfl⟩
  obtain ⟨i, hdec, hi⟩ := hi
  rw [runCommand_of_ok hdec] at hs
  exact response_of_wbit_abyte hi hs ht

/-- Settles O4: `step` on a command is `exec` of what the decoder gives. -/
theorem stepRunsTheDecodedCommand : Obligations.StepRunsTheDecodedCommand := by
  refine ⟨fun s c rest i hp hd => (step_command hp).trans (runCommand_of_ok hd _), fun s nbits w i h => ?_⟩
  exact (step_command rfl).trans (runCommand_of_ok (decode_of_tableWord h) _)

/-- Settles O10: nine words are of the forms that the decoder accepts, and the last one has a reserved tag. -/
theorem specWordsDecodeToTheirCommands : Obligations.SpecWordsDecodeToTheirCommands :=
  ⟨decode_wbit rfl, decode_abyte rfl, decode_wuns rfl, decode_wsig (rep := .sm) rfl, decode_wsig (rep := .bi) rfl,
    decode_wsig (rep := .nb) rfl, decode_enc (rep := .oc) rfl, decode_enc (rep := .tc) rfl, decode_fin rfl, rfl⟩

end Sys2Proof.Proofs
end

section
/-! Proofs of the accumulator family (40_accumulator.md): the closed form of `PutBits` (R121), the seal count (R122), the
commands WBIT, ABYTE, WUNS and FIN (R124 to R130), and the laws among them (R126, R131 to R133). -/

namespace Sys2Proof.Machine

/- Cursor, length and parameters after placing bits, in any state (40_accumulator.md R120, R122) -/

theorem placeBit_pcnt (b : Bool) (s : State) : (placeBit b s).pcnt.toNat = (s.pcnt.toNat + 1) % 8 := by
  by_cases hk : s.pcnt.toNat = 7
  · rw [placeBit_of_eq b hk, hk]
    rfl
  · have hlt : s.pcnt.toNat < 7 := by omega
    rw [placeBit_of_lt b hlt]
    exact BitVec.toNat_add s.pcnt 1

theorem placeBit_outLen (b : Bool) (s : State) : (placeBit b s).outLen = s.outLen + (s.pcnt.toNat + 1) / 8 := by
  by_cases hk : s.pcnt.toNat = 7
  · rw [placeBit_of_eq b hk, hk]
    rfl
  · have hlt : s.pcnt.toNat < 7 := by omega
    rw [placeBit_of_lt b hlt, Nat.div_eq_of_lt (by omega), Nat.add_zero]

theorem putBits_bit (b : Bool) (s : State) : putBits b.toNat 1 s = placeBit b s := by
  cases b <;> rfl

theorem placeBit_frame (b : Bool) (s : State) :
    (placeBit b s).params = s.params ∧ (placeBit b s).fin = s.fin ∧
    (placeBit b s).pending = s.pending ∧ (placeBit b s).replies = s.replies :=
  putBits_bit b s ▸ putBits_frame b.toNat 1 s

theorem putBits_outLen (p n : Nat) (s : State) : (putBits p n s).outLen = s.outLen + sealCount n s := by
  induction n generalizing s with
  | zero => simp [putBits, sealCount, Nat.div_eq_of_lt s.pcnt.isLt]
  | succ n ih =>
    simp only [putBits, ih, sealCount, placeBit_pcnt, placeBit_outLen]
    omega

/-- `PutBits` places the digits of its number one by one, so that it depends on its low n bits alone. -/
theorem putBits_eq_foldl (p n : Nat) (s : State) :
    putBits p n s = (msbBits p n).foldl (fun u b => placeBit b u) s := by
  induction n generalizing s with
  | zero => rfl
  | succ n ih => exact ih _

theorem putBits_mod (p n : Nat) (s : State) : putBits (p % 2 ^ n) n s = putBits p n s := by
  rw [putBits_eq_foldl, putBits_eq_foldl, msbBits_mod]

theorem foldl_placeBit_placed {s : State} (hd : s.out.map Prod.fst = List.range s.outLen)
    (hl : s.pb.toNat % 2 ^ (8 - s.pcnt.toNat) = 0) (bits : List Bool) :
    Placed s (bits.foldl (fun u b => placeBit b u) s) bits := by
  induction bits generalizing s with
  | nil => exact Placed.refl hd hl
  | cons b bs ih =>
    have hfirst := placeBit_placed hd hl b
    exact hfirst.trans (ih hfirst.dense hfirst.lowBits)

/- Placing bits looks at the architectural state alone (40_accumulator.md R120) -/

theorem placeBit_arch {s t : State} (h : s.arch = t.arch) (b : Bool) : (placeBit b s).arch = (placeBit b t).arch := by
  obtain ⟨hout, hlen, hpb, hk, hf⟩ := State.arch_eq_iff.mp h
  simp only [placeBit, hpb, hk]
  split_ifs <;> simp [State.arch, hout, hlen, hf]

theorem foldl_placeBit_arch {s t : State} (h : s.arch = t.arch) (bits : List Bool) :
    (bits.foldl (fun u b => placeBit b u) s).arch = (bits.foldl (fun u b => placeBit b u) t).arch := by
  induction bits generalizing s t with
  | nil => exact h
  | cons b bs ih => exact ih (placeBit_arch h b)

/- The closed form (40_accumulator.md R121) -/

/-- The placed bits of the pending byte as a number, `acc` of R121. -/
def pendingNumber (s : State) : Nat := s.pb.toNat / 2 ^ (8 - s.pcnt.toNat)

/-- The state in which the closed form leaves a stream of T bits with value c. -/
def endOfStream (c T : Nat) (s : State) : State :=
  { sealStream c T 0 (T / 8) s with
    pb := BitVec.ofNat 8 (c % 2 ^ (T % 8) * 2 ^ (8 - T % 8))
    pcnt := BitVec.ofNat 3 (T % 8) }

theorem putBitsBulk_eq (p n : Nat) (s : State) :
    putBitsBulk p n s = endOfStream (pendingNumber s * 2 ^ n + p) (s.pcnt.toNat + n) s := rfl

/-- Sealing bytes does not look at the pending byte. -/
theorem sealStream_pending (c T j m : Nat) (x : Byte) (k : BitVec 3) (s : State) :
    sealStream c T j m { s with pb := x, pcnt := k } = { sealStream c T j m s with pb := x, pcnt := k } := by
  induction m generalizing j s with
  | zero => rfl
  | succ m ih => exact ih (j + 1) (sealByte _ s)

theorem endOfStream_pending (c T : Nat) (x : Byte) (k : BitVec 3) (s : State) :
    endOfStream c T { s with pb := x, pcnt := k } = endOfStream c T s := by
  simp only [endOfStream, sealStream_pending]

/-- The low m digits are among the low n. -/
theorem mul_two_pow_add_mod {m n : Nat} (h : m ≤ n) (x p : Nat) : (x * 2 ^ n + p) % 2 ^ m = p % 2 ^ m := by
  obtain ⟨d, rfl⟩ := Nat.exists_eq_add_of_le h
  rw [pow_add, Nat.mul_left_comm, Nat.mul_add_mod]

/-- A slice below the digit n looks at the low n digits alone. -/
theorem slice_of_lt {hi lo n : Nat} (hlo : lo ≤ hi) (hhi : hi < n) (x p : Nat) :
    slice (x * 2 ^ n + p) hi lo = slice p hi lo := by
  have hle : lo + (hi - lo + 1) ≤ n := by omega
  rw [slice, slice, ← Nat.mod_mul_right_div_self, ← Nat.mod_mul_right_div_self, ← pow_add, mul_two_pow_add_mod hle]

/-- After its first byte a stream goes on as the stream of its low digits. -/
theorem sealStream_tail {n j m : Nat} (h : 8 * (j + m) ≤ n) (x p : Nat) (s : State) :
    sealStream (x * 2 ^ n + p) (n + 8) (j + 1) m s = sealStream p n j m s := by
  induction m generalizing j s with
  | zero => rfl
  | succ m ih =>
    have hhi : n + 8 - 1 - 8 * (j + 1) = n - 1 - 8 * j := by omega
    have hlo : n + 8 - 8 - 8 * (j + 1) = n - 8 - 8 * j := by omega
    rw [sealStream, sealStream, hhi, hlo, slice_of_lt (by omega) (by omega), ih (by omega)]

/-- The first byte of a stream is sealed first. -/
theorem endOfStream_byte {p n : Nat} (hp : p < 2 ^ n) (x : Nat) (s : State) :
    endOfStream (x * 2 ^ n + p) (n + 8) s = endOfStream p n (sealByte (BitVec.ofNat 8 x) s) := by
  have hslice : BitVec.ofNat 8 (slice (x * 2 ^ n + p) (n + 8 - 1 - 8 * 0) (n + 8 - 8 - 8 * 0)) = BitVec.ofNat 8 x := by
    have hquot : (x * 2 ^ n + p) / 2 ^ n = x := by
      rw [Nat.mul_comm, Nat.mul_add_div (Nat.two_pow_pos n), Nat.div_eq_of_lt hp, Nat.add_zero]
    have hwidth : n + 8 - 1 - 8 * 0 - (n + 8 - 8 - 8 * 0) + 1 = 8 := by omega
    rw [slice, hwidth, show n + 8 - 8 - 8 * 0 = n by omega, hquot]
    exact BitVec.eq_of_toNat_eq (by simp)
  have hmod : (n + 8) % 8 = n % 8 := Nat.add_mod_right n 8
  rw [endOfStream, Nat.add_div_right n (by decide), sealStream, hslice, sealStream_tail (by omega), hmod,
    mul_two_pow_add_mod (Nat.mod_le n 8)]
  rfl

/-- The pending byte is its placed bits, then zeros. -/
theorem pendingNumber_mul {s : State} (hl : s.pb.toNat % 2 ^ (8 - s.pcnt.toNat) = 0) :
    pendingNumber s * 2 ^ (8 - s.pcnt.toNat) = s.pb.toNat :=
  Nat.div_mul_cancel (Nat.dvd_of_mod_eq_zero hl)

theorem pendingNumber_lt (s : State) : pendingNumber s < 2 ^ s.pcnt.toNat := by
  have hk := s.pcnt.isLt
  rw [pendingNumber, Nat.div_lt_iff_lt_mul (Nat.two_pow_pos _), ← pow_add,
    show s.pcnt.toNat + (8 - s.pcnt.toNat) = 8 by omega]
  exact s.pb.isLt

/-- With nothing to place the closed form gives the pending byte again. -/
theorem endOfStream_pendingNumber {s : State} (hl : s.pb.toNat % 2 ^ (8 - s.pcnt.toNat) = 0) :
    endOfStream (pendingNumber s) s.pcnt.toNat s = s := by
  have hk := s.pcnt.isLt
  rw [endOfStream, Nat.div_eq_of_lt hk, Nat.mod_eq_of_lt hk, Nat.mod_eq_of_lt (pendingNumber_lt s), pendingNumber_mul hl,
    BitVec.ofNat_toNat, BitVec.ofNat_toNat, BitVec.setWidth_eq, BitVec.setWidth_eq, sealStream]

/-- The pending byte with one more bit placed. -/
theorem pbWith_toNat {s : State} (b : Bool) (hl : s.pb.toNat % 2 ^ (8 - s.pcnt.toNat) = 0) :
    (pbWith b s).toNat = (pendingNumber s * 2 + b.toNat) * 2 ^ (7 - s.pcnt.toNat) := by
  have hk := s.pcnt.isLt
  obtain ⟨hlt, _, _⟩ := placed_pending b hk s.pb.isLt hl
  have hpow : 2 ^ (8 - s.pcnt.toNat) = 2 * 2 ^ (7 - s.pcnt.toNat) := by
    rw [← pow_succ', show 7 - s.pcnt.toNat + 1 = 8 - s.pcnt.toNat by omega]
  rw [pbWith, BitVec.toNat_ofNat, Nat.mod_eq_of_lt hlt, ← pendingNumber_mul hl, hpow]
  ring

/-- Placing a bit moves it from the bits to come to the pending byte, or seals the byte that it fills: the closed form of the
other bits is that of all of them. -/
theorem endOfStream_placeBit {s : State} {p n : Nat} (hl : s.pb.toNat % 2 ^ (8 - s.pcnt.toNat) = 0) (b : Bool)
    (hp : p < 2 ^ n) :
    endOfStream (pendingNumber (placeBit b s) * 2 ^ n + p) ((placeBit b s).pcnt.toNat + n) (placeBit b s) =
      endOfStream ((pendingNumber s * 2 + b.toNat) * 2 ^ n + p) (s.pcnt.toNat + (n + 1)) s := by
  have hpb := pbWith_toNat b hl
  by_cases hk : s.pcnt.toNat = 7
  · have hfull : pbWith b s = BitVec.ofNat 8 (pendingNumber s * 2 + b.toNat) := by
      rw [hk, Nat.sub_self, pow_zero, Nat.mul_one] at hpb
      rw [← hpb, BitVec.ofNat_toNat, BitVec.setWidth_eq]
    rw [placeBit_of_eq b hk, endOfStream_pending, hfull, hk, show 7 + (n + 1) = n + 8 by omega, endOfStream_byte hp]
    simp [pendingNumber]
  · have hlt : s.pcnt.toNat < 7 := by omega
    have hsucc : (s.pcnt + 1).toNat = s.pcnt.toNat + 1 := BitVec.toNat_add_of_lt (show s.pcnt.toNat + 1 < 8 by omega)
    have hnum : pendingNumber { s with pb := pbWith b s, pcnt := s.pcnt + 1 } = pendingNumber s * 2 + b.toNat := by
      rw [pendingNumber, hpb, hsucc, show 8 - (s.pcnt.toNat + 1) = 7 - s.pcnt.toNat by omega]
      exact Nat.mul_div_cancel _ (Nat.two_pow_pos _)
    rw [placeBit_of_lt b hlt, endOfStream_pending, hnum, hsucc, Nat.add_assoc, Nat.add_comm 1 n]

theorem placeBit_lowBits {s : State} (hl : s.pb.toNat % 2 ^ (8 - s.pcnt.toNat) = 0) (b : Bool) :
    (placeBit b s).pb.toNat % 2 ^ (8 - (placeBit b s).pcnt.toNat) = 0 := by
  by_cases hk : s.pcnt.toNat = 7
  · rw [placeBit_of_eq b hk]
    rfl
  · have hlt : s.pcnt.toNat < 7 := by omega
    rw [placeBit_pcnt, Nat.mod_eq_of_lt (show s.pcnt.toNat + 1 < 8 by omega),
      show 8 - (s.pcnt.toNat + 1) = 7 - s.pcnt.toNat by omega, placeBit_of_lt b hlt]
    exact pbWith_lowBits b hl

/-- The first of n + 1 digits, then the others. -/
theorem testBit_mul_add_mod {p n : Nat} (hp : p < 2 ^ (n + 1)) : (p.testBit n).toNat * 2 ^ n + p % 2 ^ n = p := by
  rw [Nat.toNat_testBit, Nat.add_comm, Nat.mul_comm, ← Nat.mod_pow_succ, Nat.mod_eq_of_lt hp]

/-- The closed form, bit by bit: the number of bits goes down by one as the first bit is placed. -/
theorem putBits_eq_endOfStream {s : State} {p n : Nat} (hl : s.pb.toNat % 2 ^ (8 - s.pcnt.toNat) = 0) (hp : p < 2 ^ n) :
    putBits p n s = endOfStream (pendingNumber s * 2 ^ n + p) (s.pcnt.toNat + n) s := by
  induction n generalizing p s with
  | zero =>
    obtain rfl : p = 0 := by omega
    rw [pow_zero, Nat.mul_one, Nat.add_zero, Nat.add_zero, endOfStream_pendingNumber hl]
    rfl
  | succ n ih =>
    have hlow : p % 2 ^ n < 2 ^ n := Nat.mod_lt _ (Nat.two_pow_pos n)
    have hnum : (pendingNumber s * 2 + (p.testBit n).toNat) * 2 ^ n + p % 2 ^ n = pendingNumber s * 2 ^ (n + 1) + p := by
      rw [Nat.add_mul, Nat.add_assoc, testBit_mul_add_mod hp, pow_succ', Nat.mul_assoc]
    rw [putBits, ← putBits_mod, ih (placeBit_lowBits hl _) hlow, endOfStream_placeBit hl _ hlow, hnum]

/- The room for the bytes a command seals (40_accumulator.md R122, R123) -/

theorem HasRoom.mono {s : State} {k m : Nat} (h : HasRoom k s) (hle : m ≤ k) : HasRoom m s :=
  fun c hc => (Nat.add_le_add_left hle _).trans (h c hc)

theorem capOk_eq_false {s : State} {k : Nat} (h : ¬ HasRoom k s) : capOk k s = false :=
  Bool.eq_false_iff.mpr (mt (capOk_iff k s).mp h)

theorem StateInv.one_le_w {s : State} (h : StateInv s) : 1 ≤ s.params.w := le_trans (by decide) h.legal.1

theorem StateInv.hasRoom_zero {s : State} (h : StateInv s) : HasRoom 0 s := h.capacity

theorem sealCount_zero (s : State) : sealCount 0 s = 0 := Nat.div_eq_of_lt s.pcnt.isLt

theorem sealCount_byte (s : State) : sealCount 8 s = 1 := by
  have hk := s.pcnt.isLt
  rw [sealCount]
  omega

theorem sealCount_mono {m n : Nat} (h : m ≤ n) (s : State) : sealCount m s ≤ sealCount n s :=
  Nat.div_le_div_right (Nat.add_le_add_left h _)

/-- The bytes that n + 1 bits seal are those of the first bit and those of the others. -/
theorem HasRoom.after_placeBit {s : State} {n : Nat} (h : HasRoom (sealCount (n + 1) s) s) (b : Bool) :
    HasRoom (sealCount n (placeBit b s)) (placeBit b s) := by
  obtain ⟨hparams, _, _, _⟩ := placeBit_frame b s
  intro c hc
  rw [hparams] at hc
  have hle := h c hc
  simp only [sealCount, placeBit_pcnt, placeBit_outLen] at hle ⊢
  omega

/- A write that completes: bits placed and an answer -/

theorem onBus_of_lt {w n : Nat} (h : n < 2 ^ w) : onBus w n = BitVec.ofNat 64 n := by
  rw [onBus, Nat.mod_eq_of_lt h]

/-- A command that placed the n low bits of p and answered did what `Wrote` says. -/
theorem Placed.wrote {s t : State} {p n r : Nat} {x : Word} (h : Placed s t (msbBits p n)) (hs : StateInv s)
    (hx : onBus s.params.w r = x) (tr : Bool) :
    Wrote s (respond tr r t) p n { status := .ok, trunc := tr, result := x } := by
  have hlen : t.outLen = s.outLen + sealCount n s := by
    rw [h.outLen, msbBits_length, sealCount]
  exact {
    stream := h.stream
    lowBits := h.lowBits
    pcnt := by rw [respond_pcnt, h.pcnt, msbBits_length]
    outLen := hlen
    dense := h.dense
    bytes := fun a ha => h.bytes hs.dense a (hlen ▸ ha)
    fin := h.fin
    replies := by rw [respond_replies, h.replies, h.params, hx]
    params := h.params
    pending := h.pending }

@[simp] theorem respond_arch (tr : Bool) (n : Nat) (s : State) : (respond tr n s).arch = s.arch := rfl

/- WBIT (40_accumulator.md R124) -/

theorem exec_wbit_of_badValue {s : State} {d : Word} (hf : s.fin = false) (hx : 1 < zextW s.params.w d) :
    exec (.wbit d) s = .next (raise .errValue s) := by
  simp [exec, execWbit, hf, hx]

theorem exec_wbit_of_noRoom {s : State} {d : Word} (hf : s.fin = false) (hx : zextW s.params.w d ≤ 1)
    (hroom : ¬ HasRoom (sealCount 1 s) s) : exec (.wbit d) s = .next (raise .errFull s) := by
  simp [exec, execWbit, hf, hx.not_gt, capOk_eq_false hroom]

theorem exec_wbit_of_room {s : State} {d : Word} (hf : s.fin = false) (hx : zextW s.params.w d ≤ 1)
    (hroom : HasRoom (sealCount 1 s) s) :
    exec (.wbit d) s = .next (respond false 0 (putBits (zextW s.params.w d) 1 s)) := by
  simp [exec, execWbit, hf, hx.not_gt, (capOk_iff _ s).mpr hroom]

/- ABYTE (40_accumulator.md R125, R126) -/

/-- At an aligned cursor `PutBits` of eight bits is `Seal`: the closed form of a stream of one byte. -/
theorem putBits_eq_sealByte {s : State} (hk : s.pcnt = 0) (hpb : s.pb = 0) {x : Nat} (hx : x < 256) :
    putBits x 8 s = sealByte (BitVec.ofNat 8 x) s := by
  have hlow : s.pb.toNat % 2 ^ (8 - s.pcnt.toNat) = 0 := by
    rw [hpb]
    exact Nat.zero_mod _
  have hnum : pendingNumber s = 0 := by
    rw [pendingNumber, hpb]
    exact Nat.zero_div _
  have hend : endOfStream x 8 s = endOfStream 0 0 (sealByte (BitVec.ofNat 8 x) s) := by
    simpa using endOfStream_byte (p := 0) (n := 0) (by decide) x s
  have hempty : endOfStream 0 0 (sealByte (BitVec.ofNat 8 x) s) = sealByte (BitVec.ofNat 8 x) s := by
    simpa [pendingNumber, hk, hpb] using endOfStream_pendingNumber (s := sealByte (BitVec.ofNat 8 x) s) hlow
  rw [putBits_eq_endOfStream hlow hx, hnum, hk, Nat.zero_mul, Nat.zero_add]
  exact hend.trans hempty

theorem exec_abyte_of_badValue {s : State} {d : Word} (hf : s.fin = false) (hx : 255 < zextW s.params.w d) :
    exec (.abyte d) s = .next (raise .errValue s) := by
  simp [exec, execAbyte, hf, hx]

theorem exec_abyte_of_noRoom {s : State} {d : Word} (hf : s.fin = false) (hx : zextW s.params.w d ≤ 255)
    (hroom : ¬ HasRoom 1 s) : exec (.abyte d) s = .next (raise .errFull s) := by
  simp [exec, execAbyte, hf, hx.not_gt, capOk_eq_false hroom]

/-- ABYTE places its eight bits, with or without the aligned path (40_accumulator.md R126). -/
theorem exec_abyte_of_room {s : State} {d : Word} (hs : StateInv s) (hf : s.fin = false)
    (hx : zextW s.params.w d ≤ 255) (hroom : HasRoom 1 s) :
    exec (.abyte d) s = .next (respond false 0 (putBits (zextW s.params.w d) 8 s)) := by
  simp only [exec, execAbyte, hf, hx.not_gt, (capOk_iff _ s).mpr hroom, Bool.not_true, Bool.false_eq_true, if_false]
  split_ifs with hk
  · rw [putBits_eq_sealByte hk (hs.pb_eq_zero hk) (by omega)]
  · rfl

/- WUNS (40_accumulator.md R127) -/

theorem exec_wuns_of_noRoom {s : State} {b : BitVec 7} (d : Word) (hf : s.fin = false) (hw : b.toNat ≤ s.params.w)
    (hroom : ¬ HasRoom (sealCount b.toNat s) s) : exec (.wuns b d) s = .next (raise .errFull s) := by
  have hwide : tooWide b s = false := decide_eq_false hw.not_gt
  simp [exec, execWuns, hf, hwide, bitsCount, capOk_eq_false hroom]

/- FIN (40_accumulator.md R129, R130) -/

theorem exec_fin_of_finalized {s : State} (hf : s.fin = true) : exec .fin s = .next (respond false s.outLen s) :=
  if_pos hf

theorem exec_fin_of_noRoom {s : State} (hf : s.fin = false) (hk : s.pcnt ≠ 0) (hroom : ¬ HasRoom 1 s) :
    exec .fin s = .next (raise .errFull s) := by
  have hcap : capOk (if s.pcnt = 0 then 0 else 1) s = false := by
    rw [if_neg hk]
    exact capOk_eq_false hroom
  simp only [exec, execFin, hf, hcap, Bool.not_false, Bool.false_eq_true, if_false, if_true]

theorem exec_fin_of_room {s : State} (hf : s.fin = false) (hroom : HasRoom (if s.pcnt = 0 then 0 else 1) s) :
    exec .fin s = .next (respond false (finalize s).outLen (finalize s)) := by
  simp only [exec, execFin, hf, (capOk_iff _ s).mpr hroom, Bool.not_true, Bool.false_eq_true, if_false]

/-- An aligned FIN needs no room (40_accumulator.md R129). -/
theorem StateInv.hasRoom_fin {s : State} (h : StateInv s) (hroom : s.pcnt ≠ 0 → HasRoom 1 s) :
    HasRoom (if s.pcnt = 0 then 0 else 1) s := by
  split_ifs with hk
  · exact h.hasRoom_zero
  · exact hroom hk

theorem finalize_of_aligned {s : State} (hk : s.pcnt = 0) : finalize s = { s with fin := true } := if_pos hk

theorem finalize_of_pending {s : State} (hk : s.pcnt ≠ 0) :
    finalize s = { sealByte s.pb s with pb := 0, pcnt := 0, fin := true } := if_neg hk

theorem finalize_outLen (s : State) : (finalize s).outLen = s.outLen + (if s.pcnt = 0 then 0 else 1) := by
  rw [finalize_eq]
  split_ifs <;> rfl

theorem finalize_frame (s : State) : (finalize s).params = s.params ∧ (finalize s).pending = s.pending ∧
    (finalize s).replies = s.replies := by
  rw [finalize_eq]
  split_ifs <;> exact ⟨rfl, rfl, rfl⟩

theorem finalize_read_other {s : State} {a : Nat} (h : a ≠ s.outLen ∨ s.pcnt = 0) :
    Memory.read (finalize s).out a = Memory.read s.out a := by
  by_cases hk : s.pcnt = 0
  · rw [finalize_of_aligned hk]
  · rw [finalize_of_pending hk]
    exact Memory.read_write_other _ _ (h.resolve_right hk)

theorem finalize_read_pending {s : State} (hk : s.pcnt ≠ 0) :
    Memory.read (finalize s).out s.outLen = some s.pb := by
  rw [finalize_of_pending hk]
  exact Memory.read_write_same _ _ _

theorem msbBits_zero (n : Nat) : msbBits 0 n = List.replicate n false := by
  induction n with
  | zero => rfl
  | succ n ih => rw [msbBits, ih, Nat.zero_testBit, List.replicate_succ]

/-- The digits of the pending byte: the placed bits, then the padding zeros. -/
theorem msbBits_pending {s : State} (hl : s.pb.toNat % 2 ^ (8 - s.pcnt.toNat) = 0) :
    msbBits s.pb.toNat 8 = (msbBits s.pb.toNat 8).take s.pcnt.toNat ++ List.replicate (8 - s.pcnt.toNat) false := by
  have hk := s.pcnt.isLt
  have hsum : 8 = s.pcnt.toNat + (8 - s.pcnt.toNat) := by omega
  have hdigits : msbBits s.pb.toNat 8 = msbBits (pendingNumber s) s.pcnt.toNat ++ msbBits 0 (8 - s.pcnt.toNat) := by
    rw [← msbBits_append _ _ _ _ (Nat.two_pow_pos _), Nat.add_zero, pendingNumber_mul hl, ← hsum]
  rw [hdigits, List.take_left' (msbBits_length _ _), msbBits_zero]

/-- FIN pads the stream with zeros to whole bytes (40_accumulator.md R129). -/
theorem finalize_stream {s : State} (hs : StateInv s) :
    (finalize s).stream = s.stream ++ List.replicate ((8 - s.pcnt.toNat) % 8) false := by
  by_cases hk : s.pcnt = 0
  · rw [finalize_of_aligned hk]
    simp [State.stream, hk]
  · have hpos : s.pcnt.toNat ≠ 0 := fun h => hk (BitVec.eq_of_toNat_eq h)
    have hpad : (8 - s.pcnt.toNat) % 8 = 8 - s.pcnt.toNat := Nat.mod_eq_of_lt (by omega)
    rw [finalize_of_pending hk, hpad]
    simp only [State.stream, sealByte_out, Memory.write_dense s.pb hs.dense, List.flatMap_append, List.flatMap_singleton,
      List.append_assoc, ← msbBits_pending hs.lowBits]
    simp

/- A write of width 0 (40_accumulator.md R132) -/

theorem exec_wsigOf_of_zero {s : State} (hs : StateInv s) (hf : s.fin = false) (rep : Rep) (d k : Word) :
    exec (wsigOf rep 0 d k) s = .next (respond false 0 s) := by
  have hroom : capOk 0 s = true := (capOk_iff 0 s).mpr hs.hasRoom_zero
  rw [exec_wsigOf]
  simp [writeSigned, hf, tooWide, bitsCount, encodeSigned, sealCount_zero, hroom, putBits]

theorem exec_wuns_of_zero {s : State} (hs : StateInv s) (hf : s.fin = false) (d : Word) :
    ∃ tr, exec (.wuns 0 d) s = .next (respond tr 0 s) := by
  have hroom : HasRoom (sealCount 0 s) s := (sealCount_zero s).symm ▸ hs.hasRoom_zero
  have hexec := exec_wuns_of_room (b := 0) (n := 0) rfl d hf (Nat.zero_le _) hroom
  rw [pow_zero, Nat.mod_one, putBits] at hexec
  exact ⟨_, hexec⟩

theorem wsigOf_isWrite (rep : Rep) (b : BitVec 7) (d k : Word) : (wsigOf rep b d k).isWrite = true := by
  cases rep <;> rfl

/-- The commands of R132 are the WUNS and, for each tag, the WSIG of width 0. -/
theorem zeroWidth_cases {d k : Word} {i : Instr}
    (hi : i ∈ [Instr.wuns 0 d, .wsigSm 0 d, .wsigOc 0 d, .wsigTc 0 d, .wsigBi 0 d k, .wsigNb 0 d]) :
    i = .wuns 0 d ∨ ∃ rep, i = wsigOf rep 0 d k := by
  simp only [List.mem_cons, List.not_mem_nil, or_false] at hi
  rcases hi with h | h | h | h | h | h
  · exact .inl h
  · exact .inr ⟨.sm, h⟩
  · exact .inr ⟨.oc, h⟩
  · exact .inr ⟨.tc, h⟩
  · exact .inr ⟨.bi, h⟩
  · exact .inr ⟨.nb, h⟩

/- The WBITs of a sequence of bits (40_accumulator.md R131, R133) -/

/-- A run that begins with a step, on any machine. -/
theorem run_of_step {M : Host.Core} {s t : M.State} (h : M.step s = .next t) (n : Nat) : M.run (n + 1) s = M.run n t := by
  rw [Host.Core.run, h]

/-- A run that goes on from where one has ended, on any machine. -/
theorem run_add {M : Host.Core} {m : Nat} {s t : M.State} (h : M.run m s = .next t) (n : Nat) :
    M.run (m + n) s = M.run n t := by
  induction m generalizing s with
  | zero =>
    cases h
    rw [Nat.zero_add]
  | succ m ih =>
    obtain ⟨u, hu, hrun⟩ := run_succ h
    rw [Nat.add_right_comm, run_of_step hu]
    exact ih hrun

theorem zextW_bit {w : Nat} (hw : 1 ≤ w) (b : Bool) : zextW w (if b then 1 else 0) = b.toNat := by
  cases b with
  | false => exact Nat.zero_mod _
  | true => exact Nat.one_mod_two_pow_eq_one.mpr hw

theorem step_wbit {s : State} {b : Bool} {bits : List Bool} {rest : List Interaction}
    (hp : s.pending = wbits (b :: bits) ++ rest) (hf : s.fin = false) (hw : 1 ≤ s.params.w)
    (hroom : HasRoom (sealCount 1 s) s) :
    step s = .next (respond false 0 (placeBit b (issued (wbits bits ++ rest) s))) := by
  have hbit := zextW_bit hw b
  rw [step_command hp, runCommand_of_ok (decode_wbit rfl), ← putBits_bit, ← hbit]
  exact exec_wbit_of_room (s := issued (wbits bits ++ rest) s) hf (hbit.trans_le b.toNat_le) hroom

/-- The WBITs of a sequence of bits place them, where the bytes they seal fit. -/
theorem run_wbits {s : State} {bits : List Bool} {rest : List Interaction} (hp : s.pending = wbits bits ++ rest)
    (hf : s.fin = false) (hw : 1 ≤ s.params.w) (hroom : HasRoom (sealCount bits.length s) s) :
    ∃ u, Host.Core.run Sys2Proof.core bits.length s = .next u ∧
      u.arch = (bits.foldl (fun u b => placeBit b u) s).arch ∧ u.params = s.params ∧ u.pending = rest := by
  induction bits generalizing s with
  | nil => exact ⟨s, rfl, rfl, rfl, hp⟩
  | cons b bs ih =>
    obtain ⟨hparams, hfin, hpending, _⟩ := placeBit_frame b (issued (wbits bs ++ rest) s)
    have hstep := step_wbit hp hf hw (hroom.mono (sealCount_mono (by simp) s))
    obtain ⟨u, hu, harch, huparams, hupending⟩ := ih (s := respond false 0 (placeBit b (issued (wbits bs ++ rest) s)))
      hpending (hfin.trans hf) (hparams ▸ hw) (HasRoom.after_placeBit (s := issued (wbits bs ++ rest) s) hroom b)
    refine ⟨u, (run_of_step (M := Sys2Proof.core) hstep _).trans hu, harch.trans (foldl_placeBit_arch ?_ bs),
      huparams.trans hparams, hupending⟩
    exact placeBit_arch (s := issued (wbits bs ++ rest) s) (t := s) rfl b

/-- The WBITs of the n low bits of p do what `PutBits` does. -/
theorem run_wbits_msbBits {s : State} {n : Nat} (p : Nat) (hf : s.fin = false) (hw : 1 ≤ s.params.w)
    (hroom : HasRoom (sealCount n s) s) :
    ∃ u, Host.Core.run Sys2Proof.core n { s with pending := wbits (msbBits p n) } = .next u ∧
      u.arch = (putBits p n s).arch := by
  have hrun := run_wbits (s := { s with pending := wbits (msbBits p n) }) (List.append_nil _).symm hf hw
    (by rwa [msbBits_length])
  rw [msbBits_length] at hrun
  obtain ⟨u, hu, harch, _⟩ := hrun
  rw [putBits_eq_foldl]
  exact ⟨u, hu, harch.trans (foldl_placeBit_arch (s := { s with pending := wbits (msbBits p n) }) (t := s) rfl _)⟩

/-- 8 k WBITs at an aligned cursor and a FIN: the bits are placed, and no padding is. -/
theorem run_wbits_fin {s : State} {bits : List Bool} {k : Nat} (hs : StateInv s) (hf : s.fin = false) (hk : s.pcnt = 0)
    (hlen : bits.length = 8 * k) (hroom : HasRoom k s)
    (hp : s.pending = wbits bits ++ [.command { cw := 0x0006, data := 0, bias := 0 }]) :
    ∃ t v, Host.Core.run Sys2Proof.core (8 * k + 1) s = .next t ∧ Placed s v bits ∧ t.fin = true ∧ t.out = v.out ∧
      t.outLen = v.outLen := by
  have hroom' : HasRoom (sealCount bits.length s) s := by rwa [hlen, sealCount_aligned hk]
  have hplaced := foldl_placeBit_placed hs.dense hs.lowBits bits
  obtain ⟨u, hu, harch, huparams, hupending⟩ := run_wbits hp hf hs.one_le_w hroom'
  have hinv : StateInv u := (hs.placed hf hplaced hroom').of_arch (huparams.trans hplaced.params.symm) harch
  obtain ⟨huout, hulen, _, hupcnt, hufin⟩ := State.arch_eq_iff.mp harch
  have haligned : u.pcnt = 0 := by
    refine BitVec.eq_of_toNat_eq ?_
    rw [hupcnt, hplaced.pcnt, hk, hlen]
    simp
  have hfin := exec_fin_of_room (s := issued [] u) (hufin.trans (hplaced.fin.trans hf))
    ((hinv.issued []).hasRoom_fin fun hne => absurd haligned hne)
  rw [finalize_of_aligned (s := issued [] u) haligned] at hfin
  have hstep := (step_command hupending).trans ((runCommand_of_ok (decode_fin rfl) _).trans hfin)
  rw [← hlen]
  exact ⟨_, _, (run_add hu 1).trans (run_of_step (M := Sys2Proof.core) hstep 0), hplaced, rfl, huout, hulen⟩

end Sys2Proof.Machine

namespace Sys2Proof.Proofs

open Sys2Proof.Machine

/-- Settles O27: both place the first bit and go on alike, over the number of bits. -/
theorem putBitsEqualsItsClosedForm : Obligations.PutBitsEqualsItsClosedForm :=
  fun s p n hl hp => (putBits_eq_endOfStream hl hp).trans (putBitsBulk_eq p n s).symm

/-- Settles O28: a bit seals a byte where it is the eighth one. -/
theorem sealCountCountsTheBytesSealed : Obligations.SealCountCountsTheBytesSealed := by
  refine ⟨fun s p n => ⟨putBits_outLen p n s, rfl⟩, fun s n hlegal hn => ?_⟩
  have hk := s.pcnt.isLt
  have hw : s.params.w ≤ 64 := hlegal.2
  rw [sealCount]
  omega

/-- Settles O31: the four ways a WBIT ends, each under its hypotheses. -/
theorem wbitPlacesOneBit : Obligations.WbitPlacesOneBit := by
  refine ⟨fun d k => decode_wbit rfl, fun s d hs => ⟨(exec_eq_errState_iff rfl s).mpr, exec_wbit_of_badValue,
    exec_wbit_of_noRoom, fun hf hx hroom => ⟨_, exec_wbit_of_room hf hx hroom, ?_⟩⟩, rfl⟩
  exact (putBits_placed hs.dense hs.lowBits _ 1).wrote hs (onBus_zero _) false

/-- Settles O32: ABYTE places eight bits at any cursor, which seal one byte and keep PCNT. -/
theorem abyteAppendsOneByte : Obligations.AbyteAppendsOneByte := by
  refine ⟨fun d k => decode_abyte rfl, fun s d hs => ⟨(exec_eq_errState_iff rfl s).mpr, exec_abyte_of_badValue,
    exec_abyte_of_noRoom, fun hf hx hroom => ⟨_, exec_abyte_of_room hs hf hx hroom, ?_⟩⟩, rfl⟩
  have hwrote := (putBits_placed hs.dense hs.lowBits (zextW s.params.w d) 8).wrote hs (onBus_zero _) false
  have hk := s.pcnt.isLt
  exact ⟨hwrote, BitVec.eq_of_toNat_eq (hwrote.pcnt.trans (by omega))⟩

/-- Settles O33: the four ways a WUNS ends; its RESULT is below 2^b and so fits the bus. -/
theorem wunsWritesTheValueModuloItsWidth : Obligations.WunsWritesTheValueModuloItsWidth := by
  refine ⟨fun b d k => decode_wuns (withBits_packCw 0x3 0 b), fun s b d hs => ⟨(exec_eq_errState_iff rfl s).mpr,
    fun hf hw => exec_wuns_of_tooWide hf ((tooWide_iff b s).mpr hw) d, exec_wuns_of_noRoom d,
    fun hf hw hroom => ⟨_, exec_wuns_of_room rfl d hf hw hroom, ?_⟩⟩, rfl⟩
  have hlt : zextW s.params.w d % 2 ^ b.toNat < 2 ^ s.params.w :=
    (Nat.mod_lt _ (Nat.two_pow_pos _)).trans_le (Nat.pow_le_pow_right (by decide) hw)
  exact (putBits_placed hs.dense hs.lowBits _ _).wrote hs (onBus_of_lt hlt) _

/-- Settles O34: FIN repeated, FIN without room, and what `finalize` does to a writer with and without a pending bit. -/
theorem finPadsSealsAndCloses : Obligations.FinPadsSealsAndCloses := by
  refine ⟨fun d k => decode_fin rfl, fun s i hf hw => (exec_eq_errState_iff hw s).mpr hf, fun s hs => ⟨exec_fin_of_finalized,
    exec_fin_of_noRoom, fun hf hroom => ⟨_, exec_fin_of_room hf (hs.hasRoom_fin hroom), ?_⟩⟩, rfl⟩
  have hinv := hs.finalize (hs.hasRoom_fin hroom)
  obtain ⟨hk, hpb⟩ := hinv.finalized (finalize_fin s)
  obtain ⟨hparams, hpending, hreplies⟩ := finalize_frame s
  refine ⟨finalize_fin s, hk, hpb, finalize_outLen s, hinv.dense, finalize_stream hs, fun a => finalize_read_other,
    finalize_read_pending, hparams, hpending, ?_⟩
  rw [respond_replies, hreplies, hparams]
  rfl

/-- Settles O46: the closed form of one aligned byte, and the WBITs of the eight bits that ABYTE places. -/
theorem abyteEqualsItsEightWbits : Obligations.AbyteEqualsItsEightWbits := by
  refine ⟨fun s x hs hk => ⟨?_, ?_⟩, fun s d hs hf hx hroom => ?_⟩
  · rw [putBits_eq_sealByte hk (hs.pb_eq_zero hk) x.isLt, BitVec.ofNat_toNat, BitVec.setWidth_eq]
  · rw [← sealByte_dense hs.dense x, ← hk, ← hs.pb_eq_zero hk]
    rfl
  · obtain ⟨u, hu, harch⟩ := run_wbits_msbBits (zextW s.params.w d) (n := 8) hf hs.one_le_w
      (by rwa [sealCount_byte])
    exact ⟨_, u, exec_abyte_of_room hs hf hx hroom, hu, (respond_arch _ _ _).trans harch.symm⟩

/-- Settles O47: the WBITs place the bits, and the FIN finds an aligned cursor. -/
theorem wbitsThenFinGiveTheirBytes : Obligations.WbitsThenFinGiveTheirBytes := by
  intro p bits k hp hlen hcap
  obtain ⟨t, v, hrun, hplaced, hfin, hout, houtLen⟩ :=
    run_wbits_fin (stateInv_afterReset hp _) rfl rfl hlen (fun c hc => (Nat.zero_add k).trans_le (hcap c hc)) rfl
  have hk : v.outLen = k := by
    rw [hplaced.outLen, hlen]
    simp
  refine ⟨t, hrun, hfin, houtLen.trans hk, by rw [hout, hplaced.dense, hk], fun i q hi hq => ?_⟩
  obtain ⟨x, hx, hbits⟩ := hplaced.read_byte (j := i) rfl rfl (by omega)
  rw [afterReset_outLen, Nat.zero_add, ← hout] at hx
  exact ⟨x, hx, hbits q hq⟩

/-- Settles O48: with width 0 no bit is placed, and the pattern is 0 in every representation. -/
theorem widthZeroWritesNothing : Obligations.WidthZeroWritesNothing := by
  intro s d k i hs hi
  have hwrite : i.isWrite = true ∧ (s.fin = false → ∃ tr, exec i s = .next (respond tr 0 s)) := by
    rcases zeroWidth_cases hi with rfl | ⟨rep, rfl⟩
    · exact ⟨rfl, fun hf => exec_wuns_of_zero hs hf d⟩
    · exact ⟨wsigOf_isWrite rep 0 d k, fun hf => ⟨false, exec_wsigOf_of_zero hs hf rep d k⟩⟩
  obtain ⟨hw, hopen⟩ := hwrite
  refine ⟨fun hf => ?_, (exec_eq_errState_iff hw s).mpr⟩
  obtain ⟨tr, htr⟩ := hopen hf
  exact ⟨_, _, htr, respond_arch _ _ _, respond_replies _ _ _, rfl, onBus_zero _⟩

/-- Settles O49: WUNS and its WBITs place the same bits, as do ABYTE and a WUNS of width 8. -/
theorem wunsEqualsItsWbits : Obligations.WunsEqualsItsWbits := by
  refine ⟨fun s b d hs hf hw hroom => ?_, fun s d hs hf hx hroom => ?_⟩
  · obtain ⟨u, hu, harch⟩ := run_wbits_msbBits (zextW s.params.w d % 2 ^ b.toNat) hf hs.one_le_w hroom
    exact ⟨_, u, exec_wuns_of_room rfl d hf hw hroom, hu, (respond_arch _ _ _).trans harch.symm⟩
  · have hvalue : zextW s.params.w d % 2 ^ 8 = zextW s.params.w d := Nat.mod_eq_of_lt (by omega)
    refine ⟨_, _, exec_abyte_of_room hs hf hx hroom,
      exec_wuns_of_room (n := 8) rfl d hf hs.legal.1 (by rwa [sealCount_byte]), ?_⟩
    rw [respond_arch, respond_arch, hvalue]

end Sys2Proof.Proofs
end

section
/-! Proofs of the signed encoder family (41_signed_encoder.md): what `Encode` answers and how the reader gets it back
(R160 to R168, R190 to R192), and the five WSIG and the five ENC commands (R170 to R180). -/

namespace Sys2Proof.Machine

/- The reader's values in closed form (41_signed_encoder.md R190) -/

theorem testBit_top {p b : Nat} (hb : 1 ≤ b) (hp : p < 2 ^ b) : p.testBit (b - 1) = decide (2 ^ (b - 1) ≤ p) := by
  by_cases h : 2 ^ (b - 1) ≤ p
  · rw [decide_eq_true h]
    exact Nat.testBit_of_two_pow_le_and_two_pow_add_one_gt h (by rwa [Nat.sub_add_cancel hb])
  · rw [decide_eq_false h]
    exact Nat.testBit_lt_two_pow (Nat.lt_of_not_le h)

theorem mod_top {p b : Nat} (hb : 1 ≤ b) (hp : p < 2 ^ b) :
    p % 2 ^ (b - 1) = if 2 ^ (b - 1) ≤ p then p - 2 ^ (b - 1) else p := by
  have hsplit := two_pow_split hb
  split_ifs with h
  · rw [Nat.mod_eq_sub_mod h, Nat.mod_eq_of_lt (by omega)]
  · exact Nat.mod_eq_of_lt (by omega)

theorem readerValue_sm {p b : Nat} (hb : 1 ≤ b) (hp : p < 2 ^ b) (bias : Int) :
    readerValue .sm p b bias = if 2 ^ (b - 1) ≤ p then (2 : Int) ^ (b - 1) - p else p := by
  simp only [readerValue, testBit_top hb hp, mod_top hb hp, decide_eq_true_eq]
  split_ifs with h
  · push_cast [h]
    ring
  · ring

theorem readerValue_oc {p b : Nat} (hb : 1 ≤ b) (hp : p < 2 ^ b) (bias : Int) :
    readerValue .oc p b bias = if 2 ^ (b - 1) ≤ p then (p : Int) - (2 ^ b - 1) else p := by
  simp only [readerValue, testBit_top hb hp, decide_eq_true_eq]

theorem readerValue_tc {p b : Nat} (hb : 1 ≤ b) (hp : p < 2 ^ b) (bias : Int) :
    readerValue .tc p b bias = if 2 ^ (b - 1) ≤ p then (p : Int) - 2 ^ b else p := by
  simp only [readerValue, testBit_top hb hp, decide_eq_true_eq]

/-- Half of the patterns of b digits, as a number and as an integer. -/
theorem two_pow_half {b : Nat} (hb : 1 ≤ b) :
    2 ^ b = 2 * 2 ^ (b - 1) ∧ (2 : Int) ^ b = 2 * ((2 ^ (b - 1) : Nat) : Int) ∧
      (2 : Int) ^ (b - 1) = ((2 ^ (b - 1) : Nat) : Int) ∧ 0 < 2 ^ (b - 1) := by
  have hcast : ((2 ^ (b - 1) : Nat) : Int) = 2 ^ (b - 1) := Nat.cast_pow 2 (b - 1)
  exact ⟨two_pow_split hb, hcast ▸ two_pow_split_int hb, hcast.symm, Nat.two_pow_pos _⟩

/-- Every pattern reads as a value of the range (41_signed_encoder.md R162 to R167). -/
theorem readerValue_representable {p b : Nat} (hb : 1 ≤ b) (hp : p < 2 ^ b) (rep : Rep) (bias : Int) :
    Representable rep (readerValue rep p b bias) b bias := by
  obtain ⟨hnat, hint, hcast, hpos⟩ := two_pow_half hb
  cases rep with
  | sm | oc | tc =>
    simp only [readerValue_sm hb hp, readerValue_oc hb hp, readerValue_tc hb hp, Representable, rangeMin, rangeMax]
    split_ifs <;> omega
  | bi =>
    simp only [Representable, rangeMin, rangeMax, readerValue]
    omega
  | nb => exact nbValue_range p b

/-- A range holds no more values than there are patterns. -/
theorem range_size_le {b : Nat} (hb : 1 ≤ b) (rep : Rep) (bias : Int) :
    rangeMax rep b bias - rangeMin rep b bias + 1 ≤ 2 ^ b := by
  have hint := two_pow_split_int hb
  cases rep with
  | sm | oc | tc | bi =>
    simp only [rangeMax, rangeMin]
    omega
  | nb => exact (nb_range_size b).le

/-- Two values of a range that agree mod 2^b are equal. -/
theorem representable_unique {rep : Rep} {b : Nat} {u v bias : Int} (hb : 1 ≤ b) (hu : Representable rep u b bias)
    (hv : Representable rep v b bias) (h : (2 : Int) ^ b ∣ u - v) : u = v := by
  have hsize := range_size_le hb rep bias
  have hlt : |u - v| < 2 ^ b := abs_lt.mpr ⟨by linarith [hu.1, hv.2], by linarith [hu.2, hv.1]⟩
  exact sub_eq_zero.mp (Int.eq_zero_of_abs_lt_dvd h hlt)

/- The digits of SM and OC (41_signed_encoder.md R162, R163) -/

/-- The pattern of R162 has the sign on top and the absolute value below, and is not negative zero. -/
theorem signMagnitude_digits {v : Int} {b p : Nat} (hb : 1 ≤ b) (hv : |v| ≤ 2 ^ (b - 1) - 1) (hp : p < 2 ^ b)
    (hval : (p : Int) = (if v < 0 then 2 ^ (b - 1) else 0) + |v|) :
    p.testBit (b - 1) = decide (v < 0) ∧ ((p % 2 ^ (b - 1) : Nat) : Int) = |v| ∧ p ≠ 2 ^ (b - 1) := by
  obtain ⟨hnat, hint, hcast, hpos⟩ := two_pow_half hb
  rw [testBit_top hb hp, mod_top hb hp, decide_eq_decide]
  rcases abs_cases v with ⟨habs, hsign⟩ | ⟨habs, hsign⟩
  · rw [if_neg hsign.not_gt] at hval
    split_ifs <;> omega
  · rw [if_pos hsign] at hval
    split_ifs <;> omega

/-- The pattern of R163 has the sign on top too, and is not negative zero. -/
theorem onesComplement_digits {v : Int} {b p : Nat} (hb : 1 ≤ b) (hv : |v| ≤ 2 ^ (b - 1) - 1) (hp : p < 2 ^ b)
    (hval : (p : Int) = (if 0 ≤ v then v else 2 ^ b - 1 - |v|)) :
    p.testBit (b - 1) = decide (v < 0) ∧ p ≠ 2 ^ b - 1 := by
  obtain ⟨hnat, hint, hcast, hpos⟩ := two_pow_half hb
  rw [testBit_top hb hp, decide_eq_decide]
  rcases abs_cases v with ⟨habs, hsign⟩ | ⟨habs, hsign⟩
  · rw [if_pos hsign] at hval
    omega
  · rw [if_neg hsign.not_ge] at hval
    omega

/-- The digits of `2^b - 1 - x` are those of x complemented. -/
theorem testBit_complement {b x p i : Nat} (hx : x < 2 ^ b) (hp : p = 2 ^ b - 1 - x) (hi : i < b) :
    p.testBit i = !x.testBit i := by
  rw [hp, Nat.sub_sub, Nat.add_comm 1 x, Nat.testBit_two_pow_sub_succ hx, decide_eq_true hi, Bool.true_and]

/- Radix -2: the closed form (41_signed_encoder.md R168) -/

theorem nbValue_congr {p q b : Nat} (h : ∀ i < b, p.testBit i = q.testBit i) : nbValue p b = nbValue q b := by
  induction b with
  | zero => rfl
  | succ b ih => rw [nbValue, nbValue, ih fun i hi => h i (by omega), h b (by omega)]

theorem oddMask_lt (b : Nat) : oddMask b < 2 ^ b := by
  induction b with
  | zero => decide
  | succ b ih =>
    rw [oddMask, pow_succ]
    split_ifs <;> omega

theorem oddMask_succ_testBit {b i : Nat} (hi : i < b) : (oddMask (b + 1)).testBit i = (oddMask b).testBit i := by
  rw [oddMask]
  split_ifs
  · rw [Nat.add_comm, Nat.testBit_two_pow_add_gt hi]
  · rfl

theorem oddMask_succ_testBit_top (b : Nat) : (oddMask (b + 1)).testBit b = decide (b % 2 = 1) := by
  have hfalse := Nat.testBit_lt_two_pow (oddMask_lt b)
  rw [oddMask]
  split_ifs with h
  · rw [Nat.add_comm, Nat.testBit_two_pow_add_eq, hfalse, decide_eq_true h]
    rfl
  · rw [Nat.add_zero, hfalse, decide_eq_false h]

/-- The digits of base -2 are those of base 2 with the odd ones complemented: at an odd i, (1 - d) * (-2)^i is
d * 2^i - 2^i, and the mask is the sum of these 2^i. -/
theorem nbValue_xor_oddMask (u b : Nat) : nbValue (u ^^^ oddMask b) b = ((u % 2 ^ b : Nat) : Int) - oddMask b := by
  induction b with
  | zero => simp [nbValue, oddMask, Nat.mod_one]
  | succ b ih =>
    have hlow : nbValue (u ^^^ oddMask (b + 1)) b = nbValue (u ^^^ oddMask b) b :=
      nbValue_congr fun i hi => by rw [Nat.testBit_xor, Nat.testBit_xor, oddMask_succ_testBit hi]
    have htop : (u ^^^ oddMask (b + 1)).testBit b = (u.testBit b ^^ decide (b % 2 = 1)) := by
      rw [Nat.testBit_xor, oddMask_succ_testBit_top]
    rw [nbValue, hlow, ih, htop, Nat.mod_pow_succ, ← Nat.toNat_testBit, oddMask]
    rcases Nat.mod_two_eq_zero_or_one b with h | h
    · rw [(Nat.even_iff.mpr h).neg_pow]
      cases u.testBit b with
      | false => simp [h]
      | true =>
        simp [h]
        ring
    · rw [(Nat.odd_iff.mpr h).neg_pow]
      cases u.testBit b with
      | false =>
        simp [h]
        ring
      | true =>
        simp [h]

/-- The value of a pattern, in closed form. -/
theorem nbValue_eq {p b : Nat} (hp : p < 2 ^ b) : nbValue p b = ((p ^^^ oddMask b : Nat) : Int) - oddMask b := by
  have h := nbValue_xor_oddMask (p ^^^ oddMask b) b
  rwa [Nat.xor_xor_cancel_right, Nat.mod_eq_of_lt (Nat.xor_lt_two_pow hp (oddMask_lt b))] at h

theorem nbValue_inj {p q b : Nat} (hp : p < 2 ^ b) (hq : q < 2 ^ b) (h : nbValue p b = nbValue q b) : p = q := by
  rw [nbValue_eq hp, nbValue_eq hq, sub_left_inj, Nat.cast_inj] at h
  exact Nat.xor_left_injective h

theorem nbClosed_lt (v : Int) (b : Nat) : nbClosed v b < 2 ^ b :=
  Nat.xor_lt_two_pow (emod_pattern _ b).1 (oddMask_lt b)

/-- The closed form reads as v mod 2^b. -/
theorem nbValue_nbClosed (v : Int) (b : Nat) : (2 : Int) ^ b ∣ nbValue (nbClosed v b) b - v := by
  obtain ⟨hlt, hcast⟩ := emod_pattern (v + oddMask b) b
  rw [nbClosed, nbValue_xor_oddMask, Nat.mod_eq_of_lt hlt, hcast, sub_sub, add_comm _ v]
  exact Int.dvd_emod_sub_self

/-- The digit loop answers the closed form: both read as the value of the range that agrees with v mod 2^b. -/
theorem encodeNb_eq_nbClosed (v : Int) (b : Nat) :
    encodeNb v b = .pattern (nbClosed v b) (!decide (nbMin b ≤ v ∧ v ≤ nbMax b)) := by
  obtain ⟨p, t, henc, hp, hdvd, htrunc, _⟩ := encodeNb_spec v b
  have hvalue : nbValue p b = nbValue (nbClosed v b) b := by
    refine nb_range_unique (nbValue_range _ b) (nbValue_range _ b) ?_
    simpa using dvd_sub hdvd (nbValue_nbClosed v b)
  have ht : t = !decide (nbMin b ≤ v ∧ v ≤ nbMax b) := by
    cases t with
    | false => rw [decide_eq_true (htrunc.mp rfl), Bool.not_true]
    | true => rw [decide_eq_false (mt htrunc.mpr Bool.true_eq_false.mp), Bool.not_false]
  rw [henc, nbValue_inj hp (nbClosed_lt v b) hvalue, ht]

/- What `Encode` answers and how it is read back (41_signed_encoder.md R160, R191, R192) -/

/-- The pattern that SM or OC never produces (41_signed_encoder.md R162, R163). -/
def IsNegativeZero (rep : Rep) (p b : Nat) : Prop :=
  match rep with
  | .sm             => p = 2 ^ (b - 1)
  | .oc             => p = 2 ^ b - 1
  | .tc | .bi | .nb => False

/-- Two patterns with the same value are equal, but for negative zero. -/
theorem readerValue_inj {rep : Rep} {p q b : Nat} {bias : Int} (hb : 1 ≤ b) (hp : p < 2 ^ b) (hq : q < 2 ^ b)
    (hpz : ¬ IsNegativeZero rep p b) (hqz : ¬ IsNegativeZero rep q b)
    (h : readerValue rep p b bias = readerValue rep q b bias) : p = q := by
  obtain ⟨hnat, hint, hcast, hpos⟩ := two_pow_half hb
  cases rep with
  | sm | oc =>
    simp only [readerValue_sm hb hp, readerValue_sm hb hq, readerValue_oc hb hp, readerValue_oc hb hq] at h
    simp only [IsNegativeZero] at hpz hqz
    split_ifs at h <;> omega
  | tc =>
    rw [readerValue_tc hb hp, readerValue_tc hb hq] at h
    split_ifs at h <;> omega
  | bi => exact Nat.cast_inj.mp (sub_left_inj.mp h)
  | nb => exact nbValue_inj hp hq h

theorem abs_le_of_not_refuses {rep : Rep} {v : Int} {b : Nat} (hb : 1 ≤ b) (hrep : rep = .sm ∨ rep = .oc)
    (hno : ¬ Refuses rep v b) : |v| ≤ 2 ^ (b - 1) - 1 :=
  not_lt.mp fun hlt => hno ⟨hrep, hb, hlt⟩

/-- SM and OC refuse the values outside their range, the others none. -/
theorem refuses_iff {b : Nat} (hb : 1 ≤ b) (rep : Rep) (v bias : Int) :
    Refuses rep v b ↔ (rep = .sm ∨ rep = .oc) ∧ ¬ Representable rep v b bias := by
  have habs : (2 : Int) ^ (b - 1) - 1 < |v| ↔ ¬ (-(2 ^ (b - 1) - 1) ≤ v ∧ v ≤ 2 ^ (b - 1) - 1) := by
    rw [← abs_le, not_le]
  cases rep with
  | sm | oc => simp [Refuses, Representable, rangeMin, rangeMax, hb, habs]
  | tc | bi | nb => simp [Refuses]

theorem encodesTo_of_encodeSigned {rep : Rep} {v bias : Int} {b p : Nat} {t : Bool}
    (h : encodeSigned v b rep bias = .pattern p t) : ¬ Refuses rep v b ∧ EncodesTo rep v b bias p t := by
  obtain ⟨hrefused, hpattern⟩ := encodeSigned_spec v b rep bias
  have hno : ¬ Refuses rep v b := fun href => nomatch (hrefused href).symm.trans h
  obtain ⟨q, u, henc, hto⟩ := hpattern hno
  cases henc.symm.trans h
  exact ⟨hno, hto⟩

/-- An accepted value is read back mod 2^b. -/
theorem EncodesTo.reads_back {rep : Rep} {v bias : Int} {b p : Nat} {t : Bool} (h : EncodesTo rep v b bias p t)
    (hb : 1 ≤ b) (hno : ¬ Refuses rep v b) : (2 : Int) ^ b ∣ readerValue rep p b bias - v := by
  obtain ⟨hp, _, hrule⟩ := h
  cases rep with
  | sm =>
    obtain ⟨hval, _⟩ := hrule hb
    obtain ⟨hsign, hmagnitude, _⟩ := signMagnitude_digits hb (abs_le_of_not_refuses hb (.inl rfl) hno) hp hval
    have heq : readerValue .sm p b bias = v := by
      rw [readerValue, hsign, hmagnitude]
      by_cases hneg : v < 0
      · simp [hneg, abs_of_neg hneg]
      · simp [hneg, abs_of_nonneg (not_lt.mp hneg)]
    rw [heq, sub_self]
    exact dvd_zero _
  | oc =>
    obtain ⟨hval, _⟩ := hrule hb
    obtain ⟨hsign, _⟩ := onesComplement_digits hb (abs_le_of_not_refuses hb (.inr rfl) hno) hp hval
    have heq : readerValue .oc p b bias = v := by
      rw [readerValue, hsign, hval]
      by_cases hneg : v < 0
      · simp [hneg, hneg.not_ge, abs_of_neg hneg]
      · simp [hneg, not_lt.mp hneg]
    rw [heq, sub_self]
    exact dvd_zero _
  | tc =>
    obtain ⟨hval, _⟩ := hrule hb
    have hdvd : (2 : Int) ^ b ∣ (p : Int) - v := hval ▸ Int.dvd_emod_sub_self
    rw [readerValue]
    split_ifs
    · rw [sub_right_comm]
      exact dvd_sub_self_right.mpr hdvd
    · exact hdvd
  | bi =>
    obtain ⟨hval, _⟩ := hrule hb
    rw [readerValue, hval, sub_sub, add_comm bias]
    exact Int.dvd_emod_sub_self
  | nb => exact (hrule hb).1

/-- TRUNC of an accepted value is 0 exactly where the value is in range. -/
theorem EncodesTo.trunc_iff {rep : Rep} {v bias : Int} {b p : Nat} {t : Bool} (h : EncodesTo rep v b bias p t)
    (hb : 1 ≤ b) (hno : ¬ Refuses rep v b) : t = false ↔ Representable rep v b bias := by
  rw [refuses_iff hb rep v bias] at hno
  obtain ⟨_, _, hrule⟩ := h
  cases rep with
  | sm => exact iff_of_true (hrule hb).2 (not_not.mp fun hv => hno ⟨.inl rfl, hv⟩)
  | oc => exact iff_of_true (hrule hb).2 (not_not.mp fun hv => hno ⟨.inr rfl, hv⟩)
  | tc | bi | nb => rw [← Bool.not_eq_true, (hrule hb).2, not_not]

/-- What is encoded is not negative zero. -/
theorem EncodesTo.not_negativeZero {rep : Rep} {v bias : Int} {b p : Nat} {t : Bool} (h : EncodesTo rep v b bias p t)
    (hb : 1 ≤ b) (hno : ¬ Refuses rep v b) : ¬ IsNegativeZero rep p b := by
  obtain ⟨hp, _, hrule⟩ := h
  cases rep with
  | sm => exact (signMagnitude_digits hb (abs_le_of_not_refuses hb (.inl rfl) hno) hp (hrule hb).1).2.2
  | oc => exact (onesComplement_digits hb (abs_le_of_not_refuses hb (.inr rfl) hno) hp (hrule hb).1).2
  | tc | bi | nb => exact id

/-- What `Encode` answers to a value that it does not refuse, said once. -/
theorem encodeSigned_reads_back {rep : Rep} {v : Int} {b : Nat} (bias : Int) (hb : 1 ≤ b) (hno : ¬ Refuses rep v b) :
    ∃ p t, encodeSigned v b rep bias = .pattern p t ∧ p < 2 ^ b ∧ ¬ IsNegativeZero rep p b ∧
      (2 : Int) ^ b ∣ readerValue rep p b bias - v ∧ (t = false ↔ Representable rep v b bias) := by
  obtain ⟨p, t, henc, hto⟩ := (encodeSigned_spec v b rep bias).2 hno
  exact ⟨p, t, henc, hto.1, hto.not_negativeZero hb hno, hto.reads_back hb hno, hto.trunc_iff hb hno⟩

theorem encodeSigned_of_representable {rep : Rep} {v bias : Int} {b : Nat} (hb : 1 ≤ b)
    (hv : Representable rep v b bias) :
    ∃ p, encodeSigned v b rep bias = .pattern p false ∧ p < 2 ^ b ∧ ¬ IsNegativeZero rep p b ∧
      readerValue rep p b bias = v := by
  have hno : ¬ Refuses rep v b := fun href => ((refuses_iff hb rep v bias).mp href).2 hv
  obtain ⟨p, t, henc, hp, hz, hdvd, htrunc⟩ := encodeSigned_reads_back bias hb hno
  rw [htrunc.mpr hv] at henc
  exact ⟨p, henc, hp, hz, representable_unique hb (readerValue_representable hb hp rep bias) hv hdvd⟩

/-- Each pattern but negative zero is the encoding of one value of the range, the one it reads as. -/
theorem pattern_reached_once {rep : Rep} {p b : Nat} (bias : Int) (hb : 1 ≤ b) (hp : p < 2 ^ b)
    (hz : ¬ IsNegativeZero rep p b) :
    ∃! v : Int, Representable rep v b bias ∧ encodeSigned v b rep bias = .pattern p false := by
  have hread := readerValue_representable hb hp rep bias
  obtain ⟨q, henc, hq, hqz, hvalue⟩ := encodeSigned_of_representable hb hread
  obtain rfl := readerValue_inj hb hq hp hqz hz hvalue
  refine ⟨_, ⟨hread, henc⟩, fun v ⟨hv, hvenc⟩ => ?_⟩
  obtain ⟨p, hpenc, _, _, hpvalue⟩ := encodeSigned_of_representable hb hv
  cases hpenc.symm.trans hvenc
  exact hpvalue.symm

theorem encodeSigned_ne_negativeZero {rep : Rep} {p b : Nat} (hb : 1 ≤ b) (hz : IsNegativeZero rep p b) (v bias : Int)
    (t : Bool) : encodeSigned v b rep bias ≠ .pattern p t := by
  intro h
  obtain ⟨hno, hto⟩ := encodesTo_of_encodeSigned h
  exact hto.not_negativeZero hb hno hz

theorem encodeSigned_nb {b : Nat} (hb : 1 ≤ b) (v bias : Int) : encodeSigned v b .nb bias = encodeNb v b :=
  if_neg (Nat.one_le_iff_ne_zero.mp hb)

/- The answers of SM and OC at width 1 and to zero (41_signed_encoder.md R162, R163) -/

/-- An answer that refuses exactly the values outside the range of SM and OC accepts only 0 at width 1. -/
theorem accepts_zero_only {v : Int} {e : Encoded} {P : Nat → Prop} (hrange : (2 : Int) ^ (1 - 1) - 1 < |v| → e = .range)
    (haccept : |v| ≤ 2 ^ (1 - 1) - 1 → ∃ p, e = .pattern p false ∧ P p) : e ≠ .range ↔ v = 0 := by
  constructor
  · intro h
    exact abs_nonpos_iff.mp (not_lt.mp fun hlt => h (hrange hlt))
  · rintro rfl
    obtain ⟨p, henc, _⟩ := haccept (by simp)
    simp [henc]

theorem encodeSm_zero (b : Nat) : encodeSm 0 b = .pattern 0 false := by
  simp [encodeSm]

theorem encodeOc_zero (b : Nat) : encodeOc 0 b = .pattern 0 false := by
  simp [encodeOc]

/- How a command goes on with what the encoder answers (41_signed_encoder.md R170, R175) -/

theorem sextW_zero (w : Nat) : sextW w 0 = 0 := by
  rw [sextW_eq_toInt]
  simp

theorem tooWide_of_le {b : BitVec 7} {s : State} (h : b.toNat ≤ s.params.w) : tooWide b s = false :=
  decide_eq_false h.not_gt

section
variable {rep : Rep} {b : BitVec 7} {d k : Word} {s : State} {p : Nat} {t : Bool}

theorem writeSigned_of_range (hf : s.fin = false) (hw : b.toNat ≤ s.params.w)
    (henc : encodeSigned (sextW s.params.w d) b.toNat rep (sextW s.params.w k) = .range) :
    writeSigned rep b d k s = raise .errRange s := by
  simp [writeSigned, hf, tooWide_of_le hw, bitsCount, henc]

theorem writeSigned_of_noRoom (hf : s.fin = false) (hw : b.toNat ≤ s.params.w)
    (henc : encodeSigned (sextW s.params.w d) b.toNat rep (sextW s.params.w k) = .pattern p t)
    (hroom : ¬ HasRoom (sealCount b.toNat s) s) : writeSigned rep b d k s = raise .errFull s := by
  simp [writeSigned, hf, tooWide_of_le hw, bitsCount, henc, capOk_eq_false hroom]

theorem writeSigned_of_room (hf : s.fin = false) (hw : b.toNat ≤ s.params.w)
    (henc : encodeSigned (sextW s.params.w d) b.toNat rep (sextW s.params.w k) = .pattern p t)
    (hroom : HasRoom (sealCount b.toNat s) s) : writeSigned rep b d k s = respond t p (putBits p b.toNat s) := by
  simp [writeSigned, hf, tooWide_of_le hw, bitsCount, henc, (capOk_iff _ s).mpr hroom]

theorem encodeOnly_of_range (hw : b.toNat ≤ s.params.w)
    (henc : encodeSigned (sextW s.params.w d) b.toNat rep (sextW s.params.w k) = .range) :
    encodeOnly rep b d k s = raise .errRange s := by
  simp [encodeOnly, tooWide_of_le hw, bitsCount, henc]

theorem encodeOnly_of_pattern (hw : b.toNat ≤ s.params.w)
    (henc : encodeSigned (sextW s.params.w d) b.toNat rep (sextW s.params.w k) = .pattern p t) :
    encodeOnly rep b d k s = respond t p s := by
  simp [encodeOnly, tooWide_of_le hw, bitsCount, henc]

end

/-- A pattern of a legal width fits the RESULT bus. -/
theorem onBus_pattern {w b p : Nat} (hp : p < 2 ^ b) (hb : b ≤ w) : onBus w p = BitVec.ofNat 64 p :=
  onBus_of_lt (hp.trans_le (Nat.pow_le_pow_right (by decide) hb))

/- WSIG (41_signed_encoder.md R170 to R174) -/

/-- The rule of R170, for the five tags alike. -/
theorem wsigOf_rule {s : State} (hs : StateInv s) (rep : Rep) (b : BitVec 7) (d k : Word) :
    SignedWriteRule (wsigOf rep b d k) rep b.toNat (sextW s.params.w d) (sextW s.params.w k) s := by
  have hexec := exec_wsigOf rep b d k s
  obtain ⟨hrange, hpattern⟩ := encodeSigned_spec (sextW s.params.w d) b.toNat rep (sextW s.params.w k)
  refine ⟨(exec_eq_errState_iff (wsigOf_isWrite rep b d k) s).mpr, fun hf hw => ?_, fun hf hw href => ?_,
    fun hf hw hno hroom => ?_, fun hf hw hno hroom => ?_⟩
  · rw [writeSigned_of_tooWide hf ((tooWide_iff b s).mpr hw)] at hexec
    exact hexec
  · rw [writeSigned_of_range hf hw (hrange href)] at hexec
    exact hexec
  · obtain ⟨p, t, henc, _⟩ := hpattern hno
    rw [writeSigned_of_noRoom hf hw henc hroom] at hexec
    exact hexec
  · obtain ⟨p, t, henc, hto⟩ := hpattern hno
    rw [writeSigned_of_room hf hw henc hroom] at hexec
    exact ⟨_, p, t, hexec, hto,
      (putBits_placed hs.dense hs.lowBits p b.toNat).wrote hs (onBus_pattern hto.1 hw) t⟩

/-- The rule of R170 for a tag that does not read BIAS. -/
theorem wsigOf_rule_unbiased {s : State} (hs : StateInv s) (rep : Rep) (b : BitVec 7) (d : Word) :
    SignedWriteRule (wsigOf rep b d 0) rep b.toNat (sextW s.params.w d) 0 s := by
  have h := wsigOf_rule hs rep b d 0
  rwa [sextW_zero] at h

theorem decode_wsig_withBits (rep : Rep) (b : BitVec 7) (d k : Word) :
    decode { cw := withBits (packCw 0x4 (repCode rep) 0) b, data := d, bias := k } = .ok (wsigOf rep b d k) :=
  decode_wsig (withBits_packCw 0x4 (repCode rep) b)

/- ENC (41_signed_encoder.md R175 to R180) -/

/-- The rule of R175, for the five tags alike. -/
theorem encOf_rule (s : State) (rep : Rep) (b : BitVec 7) (d k : Word) :
    SignedEncodeRule (encOf rep b d k) rep b.toNat (sextW s.params.w d) (sextW s.params.w k) s := by
  have hexec := exec_encOf rep b d k s
  obtain ⟨hrange, hpattern⟩ := encodeSigned_spec (sextW s.params.w d) b.toNat rep (sextW s.params.w k)
  refine ⟨fun hw => ?_, fun hw href => ?_, fun hw hno => ?_⟩
  · rw [encodeOnly_of_tooWide ((tooWide_iff b s).mpr hw)] at hexec
    exact hexec
  · rw [encodeOnly_of_range hw (hrange href)] at hexec
    exact hexec
  · obtain ⟨p, t, henc, hto⟩ := hpattern hno
    rw [encodeOnly_of_pattern hw henc, respond, onBus_pattern hto.1 hw] at hexec
    exact ⟨p, t, hto, hexec⟩

/-- The rule of R175 for a tag that does not read BIAS. -/
theorem encOf_rule_unbiased (s : State) (rep : Rep) (b : BitVec 7) (d : Word) :
    SignedEncodeRule (encOf rep b d 0) rep b.toNat (sextW s.params.w d) 0 s := by
  have h := encOf_rule s rep b d 0
  rwa [sextW_zero] at h

theorem decode_enc_withBits (rep : Rep) (b : BitVec 7) (d k : Word) :
    decode { cw := withBits (packCw 0x5 (repCode rep) 0) b, data := d, bias := k } = .ok (encOf rep b d k) :=
  decode_enc (withBits_packCw 0x5 (repCode rep) b)

end Sys2Proof.Machine

namespace Sys2Proof.Proofs

open Sys2Proof.Machine

/-- Settles O35: the shared rule at the tag SM. -/
theorem wsigSmWritesSignMagnitude : Obligations.WsigSmWritesSignMagnitude :=
  ⟨decode_wsig_withBits .sm, fun _ b d hs => wsigOf_rule_unbiased hs .sm b d, rfl⟩

/-- Settles O36: the shared rule at the tag OC. -/
theorem wsigOcWritesOnesComplement : Obligations.WsigOcWritesOnesComplement :=
  ⟨decode_wsig_withBits .oc, fun _ b d hs => wsigOf_rule_unbiased hs .oc b d, rfl⟩

/-- Settles O37: the shared rule at the tag TC. -/
theorem wsigTcWritesTwosComplement : Obligations.WsigTcWritesTwosComplement :=
  ⟨decode_wsig_withBits .tc, fun _ b d hs => wsigOf_rule_unbiased hs .tc b d, rfl, rfl⟩

/-- Settles O38: the shared rule at the tag BI, which alone reads BIAS. -/
theorem wsigBiWritesTheBiasedSum : Obligations.WsigBiWritesTheBiasedSum :=
  ⟨decode_wsig_withBits .bi, fun _ b d k hs => wsigOf_rule hs .bi b d k, rfl⟩

/-- Settles O39: the shared rule at the tag NB. -/
theorem wsigNbWritesRadixMinusTwo : Obligations.WsigNbWritesRadixMinusTwo :=
  ⟨decode_wsig_withBits .nb, fun _ b d hs => wsigOf_rule_unbiased hs .nb b d, rfl⟩

/-- Settles O40: the shared rule at the tag SM, which holds for illegal parameters too. -/
theorem encSmAnswersSignMagnitude : Obligations.EncSmAnswersSignMagnitude :=
  ⟨decode_enc_withBits .sm, fun s b d _ => encOf_rule_unbiased s .sm b d, rfl⟩

/-- Settles O41: the shared rule at the tag OC. -/
theorem encOcAnswersOnesComplement : Obligations.EncOcAnswersOnesComplement :=
  ⟨decode_enc_withBits .oc, fun s b d _ => encOf_rule_unbiased s .oc b d, rfl⟩

/-- Settles O42: the shared rule at the tag TC. -/
theorem encTcAnswersTwosComplement : Obligations.EncTcAnswersTwosComplement :=
  ⟨decode_enc_withBits .tc, fun s b d _ => encOf_rule_unbiased s .tc b d, rfl⟩

/-- Settles O43: the shared rule at the tag BI, which alone reads BIAS. -/
theorem encBiAnswersTheBiasedSum : Obligations.EncBiAnswersTheBiasedSum :=
  ⟨decode_enc_withBits .bi, fun s b d k _ => encOf_rule s .bi b d k, rfl⟩

/-- Settles O44: the shared rule at the tag NB. -/
theorem encNbAnswersRadixMinusTwo : Obligations.EncNbAnswersRadixMinusTwo :=
  ⟨decode_enc_withBits .nb, fun s b d _ => encOf_rule_unbiased s .nb b d, rfl⟩

/-- Settles O50: SM and OC refuse exactly out of range; what is not refused is answered with its pattern. -/
theorem encodeAnswersAPatternOrRange : Obligations.EncodeAnswersAPatternOrRange := by
  intro v b rep bias
  refine ⟨fun hb => if_pos hb, fun hb hrep hv => ?_, fun hb hrep hv => ?_, fun hb hsm hoc => ?_⟩
  · exact (encodeSigned_spec v b rep bias).1 ((refuses_iff hb rep v bias).mpr ⟨hrep, hv⟩)
  · obtain ⟨p, henc, hp, _⟩ := encodeSigned_of_representable hb hv
    exact ⟨p, henc, hp⟩
  · have hno : ¬ Refuses rep v b := fun href => href.1.elim hsm hoc
    obtain ⟨p, t, henc, hp, _, _, htrunc⟩ := encodeSigned_reads_back bias hb hno
    exact ⟨p, t, henc, hp, htrunc⟩

/-- Settles O51: the pattern is the sign times 2^(b-1) plus the absolute value, and its digits follow. -/
theorem signMagnitudeBits : Obligations.SignMagnitudeBits := by
  intro v b hb
  obtain ⟨hrange, haccept⟩ := encodeSm_spec v hb
  obtain ⟨hrange₁, haccept₁⟩ := encodeSm_spec v (b := 1) le_rfl
  refine ⟨hrange, fun hv => ?_, encodeSm_zero b, accepts_zero_only hrange₁ haccept₁, rfl⟩
  obtain ⟨p, henc, hp, hval⟩ := haccept hv
  exact ⟨p, henc, hp, signMagnitude_digits hb hv hp hval⟩

/-- Settles O52: the pattern is the value or `2^b - 1 - |v|`, and its digits follow. -/
theorem onesComplementBits : Obligations.OnesComplementBits := by
  intro v b hb
  obtain ⟨hrange, haccept⟩ := encodeOc_spec v hb
  obtain ⟨hrange₁, haccept₁⟩ := encodeOc_spec v (b := 1) le_rfl
  refine ⟨hrange, fun hv => ?_, encodeOc_zero b, accepts_zero_only hrange₁ haccept₁, rfl⟩
  obtain ⟨p, henc, hp, hval⟩ := haccept hv
  obtain ⟨_, hnonzero⟩ := onesComplement_digits hb hv hp hval
  refine ⟨p, henc, hp, hnonzero, fun h0 => ?_, fun hneg => ?_⟩
  · rwa [if_pos h0] at hval
  · rw [if_neg hneg.not_ge] at hval
    have habs := Int.abs_eq_natAbs v
    have hcast : ((2 ^ b : Nat) : Int) = 2 ^ b := Nat.cast_pow 2 b
    exact ⟨hval, fun i hi => testBit_complement (by omega) (by omega) hi⟩

/-- Settles O53: bounds and size are those of the weights, and each pattern is reached as in every representation. -/
theorem radixMinusTwoRangeIsExact : Obligations.RadixMinusTwoRangeIsExact := by
  have hmin : nbMin 64 < -2 ^ 63 := by decide
  refine ⟨fun b hb => ⟨nbMin_mul b, nbMax_mul b, nb_range_size b, fun v => ?_, fun p hp => ?_⟩, rfl, hmin, rfl,
    fun d hneg => ?_⟩
  · obtain ⟨p, t, henc, _, _, htrunc, _⟩ := encodeNb_spec v b
    exact ⟨p, t, henc, htrunc⟩
  · have h := pattern_reached_once (rep := .nb) 0 hb hp id
    simpa only [encodeSigned_nb hb, Representable, rangeMin, rangeMax, and_assoc] using h
  · have hmax : (0 : Int) ≤ nbMax 64 := by decide
    exact ⟨hmin.le.trans (sextW_bounds 64 d).1, hneg.le.trans hmax⟩

/-- Settles O54: loop and closed form answer patterns with the same value. -/
theorem radixMinusTwoClosedForm : Obligations.RadixMinusTwoClosedForm :=
  fun v b _ => encodeNb_eq_nbClosed v b

/-- Settles O55: every pattern reads back mod 2^b, and in range that is the value. -/
theorem encodedValuesReadBack : Obligations.EncodedValuesReadBack := by
  intro rep b v bias hb
  refine ⟨fun hv => ?_, fun hv hrep => ?_⟩
  · obtain ⟨p, henc, _, _, hvalue⟩ := encodeSigned_of_representable hb hv
    exact ⟨p, henc, hvalue⟩
  · have hno : ¬ Refuses rep v b := by
      rintro ⟨rfl | rfl, _⟩ <;> simp at hrep
    obtain ⟨p, t, henc, _, _, hdvd, htrunc⟩ := encodeSigned_reads_back bias hb hno
    have ht : t = true := Bool.eq_true_of_not_eq_false (mt htrunc.mp hv)
    exact ⟨p, ht ▸ henc, hdvd⟩

/-- Settles O56: each pattern is the encoding of the value it reads as, but for negative zero. -/
theorem patternsAreReachedOnce : Obligations.PatternsAreReachedOnce := by
  intro b bias p hb hp
  refine ⟨fun rep hrep => pattern_reached_once bias hb hp ?_, fun hz => pattern_reached_once bias hb hp hz,
    fun hz => pattern_reached_once bias hb hp hz, fun v => encodeSigned_ne_negativeZero (rep := .sm) hb rfl v bias,
    fun v => encodeSigned_ne_negativeZero (rep := .oc) hb rfl v bias⟩
  rcases hrep with rfl | rfl | rfl <;> exact id

end Sys2Proof.Proofs
end

section
/-! Proofs of the exceptions family (60_exceptions.md): the causes of the errors and their order (R222 to R228), TRUNC (R229),
and the block without interaction (R239). -/

namespace Sys2Proof.Machine

/- The tagged families in the terms of the causes (60_exceptions.md R223 to R227) -/

theorem wsigOf_width (rep : Rep) (b : BitVec 7) (d k : Word) : (wsigOf rep b d k).width = some b.toNat := by
  cases rep <;> rfl

theorem encOf_width (rep : Rep) (b : BitVec 7) (d k : Word) : (encOf rep b d k).width = some b.toNat := by
  cases rep <;> rfl

theorem wsigOf_badValue (w : Nat) (rep : Rep) (b : BitVec 7) (d k : Word) :
    ¬ (wsigOf rep b d k).badValue w := by
  cases rep <;> exact id

theorem encOf_badValue (w : Nat) (rep : Rep) (b : BitVec 7) (d k : Word) :
    ¬ (encOf rep b d k).badValue w := by
  cases rep <;> exact id

theorem wsigOf_outOfRange (w : Nat) (rep : Rep) (b : BitVec 7) (d k : Word) :
    (wsigOf rep b d k).outOfRange w ↔ Refuses rep (sextW w d) b.toNat := by
  cases rep <;> simp [wsigOf, Instr.outOfRange, Refuses]

theorem encOf_outOfRange (w : Nat) (rep : Rep) (b : BitVec 7) (d k : Word) :
    (encOf rep b d k).outOfRange w ↔ Refuses rep (sextW w d) b.toNat := by
  cases rep <;> simp [encOf, Instr.outOfRange, Refuses]

theorem wsigOf_sealsIn (s : State) (rep : Rep) (b : BitVec 7) (d k : Word) :
    (wsigOf rep b d k).sealsIn s = sealCount b.toNat s := by
  cases rep <;> rfl

theorem encOf_sealsIn (s : State) (rep : Rep) (b : BitVec 7) (d k : Word) : (encOf rep b d k).sealsIn s = 0 := by
  cases rep <;> rfl

/- The causes of an accepted word (60_exceptions.md R222 to R227) -/

section
variable {c : Command} {i : Instr} (hi : decode c = .ok i) (s : State)
include hi

theorem cause_errState_iff : Cause c s .errState ↔ i.isWrite = true ∧ s.fin = true := by
  simp [Cause, hi]

theorem cause_errWidth_iff : Cause c s .errWidth ↔ ∃ n, i.width = some n ∧ s.params.w < n := by
  simp [Cause, hi]

theorem cause_errValue_iff : Cause c s .errValue ↔ i.badValue s.params.w := by
  simp [Cause, hi]

theorem cause_errRange_iff : Cause c s .errRange ↔ i.outOfRange s.params.w := by
  simp [Cause, hi]

theorem cause_errFull_iff : Cause c s .errFull ↔ ¬ HasRoom (i.sealsIn s) s := by
  simp [Cause, hi, HasRoom]

end

/- What each cause leads to, where no earlier one is there (60_exceptions.md R228) -/

/-- FIN without room for the byte that it would seal, whether or not there is one (40_accumulator.md R129). -/
theorem exec_fin_of_noSealRoom {s : State} (hf : s.fin = false) (hroom : ¬ HasRoom (if s.pcnt = 0 then 0 else 1) s) :
    exec .fin s = .next (raise .errFull s) := by
  simp only [exec, execFin, hf, capOk_eq_false hroom, Bool.not_false, Bool.false_eq_true, if_false, if_true]

section
variable {c : Command} {i : Instr} {s : State} (hd : Decoded c (.ok i))
include hd

/-- The width of an accepted word is its field BITS, and only ENC and the write commands have one. -/
theorem width_of_decoded {n : Nat} (hn : i.width = some n) :
    (cwBits c.cw).toNat = n ∧ (cwOp c.cw = opCode .enc ∨ i.isWrite = true) := by
  cases hd with
  | wbit _ | abyte _ | fin _ => cases hn
  | wuns b hcw =>
    cases hn
    rw [hcw, cwBits_packCw]
    exact ⟨rfl, .inr rfl⟩
  | wsig rep b hcw =>
    cases (wsigOf_width ..).symm.trans hn
    rw [hcw, cwBits_packCw]
    exact ⟨rfl, .inr (wsigOf_isWrite ..)⟩
  | enc rep b hcw =>
    cases (encOf_width ..).symm.trans hn
    rw [hcw, cwBits_packCw, cwOp_packCw]
    exact ⟨rfl, .inl rfl⟩

theorem exec_of_tooWide {n : Nat} (hopen : i.isWrite = true → s.fin = false) (hn : i.width = some n)
    (hw : s.params.w < n) : exec i s = .next (raise .errWidth s) := by
  obtain ⟨hbits, hop⟩ := width_of_decoded hd hn
  exact exec_of_wideWord hd (hbits ▸ hw) (hop.imp_right hopen)

theorem exec_of_badValue (hopen : i.isWrite = true → s.fin = false) (hv : i.badValue s.params.w) :
    exec i s = .next (raise .errValue s) := by
  cases hd with
  | wbit _ => exact exec_wbit_of_badValue (hopen rfl) hv
  | abyte _ => exact exec_abyte_of_badValue (hopen rfl) hv
  | wuns _ _ | fin _ => exact hv.elim
  | wsig rep b _ => exact (wsigOf_badValue _ _ _ _ _ hv).elim
  | enc rep b _ => exact (encOf_badValue _ _ _ _ _ hv).elim

theorem exec_of_outOfRange (hopen : i.isWrite = true → s.fin = false)
    (hw : ∀ n, i.width = some n → n ≤ s.params.w) (hr : i.outOfRange s.params.w) :
    exec i s = .next (raise .errRange s) := by
  cases hd with
  | wbit _ | abyte _ | wuns _ _ | fin _ => exact hr.elim
  | wsig rep b _ =>
    rw [wsigOf_outOfRange] at hr
    rw [exec_wsigOf, writeSigned_of_range (hopen (wsigOf_isWrite ..)) (hw _ (wsigOf_width ..))
      ((encodeSigned_spec ..).1 hr)]
  | enc rep b _ =>
    rw [encOf_outOfRange] at hr
    rw [exec_encOf, encodeOnly_of_range (hw _ (encOf_width ..)) ((encodeSigned_spec ..).1 hr)]

/-- ENC seals nothing, and FIN nothing on a finalized writer: under the invariant both have room. -/
theorem exec_of_noRoom (hs : StateInv s) (hopen : i.isWrite = true → s.fin = false)
    (hw : ∀ n, i.width = some n → n ≤ s.params.w) (hv : ¬ i.badValue s.params.w) (hr : ¬ i.outOfRange s.params.w)
    (hroom : ¬ HasRoom (i.sealsIn s) s) : exec i s = .next (raise .errFull s) := by
  cases hd with
  | wbit _ => exact exec_wbit_of_noRoom (hopen rfl) (not_lt.mp hv) hroom
  | abyte _ => exact exec_abyte_of_noRoom (hopen rfl) (not_lt.mp hv) hroom
  | wuns b _ => exact exec_wuns_of_noRoom _ (hopen rfl) (hw _ rfl) hroom
  | wsig rep b _ =>
    rw [wsigOf_outOfRange] at hr
    rw [wsigOf_sealsIn] at hroom
    obtain ⟨p, t, henc, _⟩ := (encodeSigned_spec _ _ rep (sextW s.params.w c.bias)).2 hr
    rw [exec_wsigOf, writeSigned_of_noRoom (hopen (wsigOf_isWrite ..)) (hw _ (wsigOf_width ..)) henc hroom]
  | enc rep b _ =>
    rw [encOf_sealsIn] at hroom
    exact absurd hs.hasRoom_zero hroom
  | fin _ =>
    rw [sealsIn_fin] at hroom
    have hf : s.fin = false := by
      refine Bool.eq_false_iff.mpr fun hf => hroom ?_
      rw [if_pos (hs.finalized hf).1]
      exact hs.hasRoom_zero
    exact exec_fin_of_noSealRoom hf hroom

/-- A command without a cause of an error answers OK. -/
theorem exec_of_noError (hs : StateInv s) (hopen : i.isWrite = true → s.fin = false)
    (hw : ∀ n, i.width = some n → n ≤ s.params.w) (hv : ¬ i.badValue s.params.w) (hr : ¬ i.outOfRange s.params.w)
    (hroom : HasRoom (i.sealsIn s) s) : ∃ tr n u, exec i s = .next (respond tr n u) := by
  cases hd with
  | wbit _ => exact ⟨_, _, _, exec_wbit_of_room (hopen rfl) (not_lt.mp hv) hroom⟩
  | abyte _ => exact ⟨_, _, _, exec_abyte_of_room hs (hopen rfl) (not_lt.mp hv) hroom⟩
  | wuns b _ => exact ⟨_, _, _, exec_wuns_of_room rfl _ (hopen rfl) (hw _ rfl) hroom⟩
  | wsig rep b _ =>
    rw [wsigOf_outOfRange] at hr
    rw [wsigOf_sealsIn] at hroom
    obtain ⟨p, t, henc, _⟩ := (encodeSigned_spec _ _ rep (sextW s.params.w c.bias)).2 hr
    rw [exec_wsigOf, writeSigned_of_room (hopen (wsigOf_isWrite ..)) (hw _ (wsigOf_width ..)) henc hroom]
    exact ⟨_, _, _, rfl⟩
  | enc rep b _ =>
    rw [encOf_outOfRange] at hr
    obtain ⟨p, t, henc, _⟩ := (encodeSigned_spec _ _ rep (sextW s.params.w c.bias)).2 hr
    rw [exec_encOf, encodeOnly_of_pattern (hw _ (encOf_width ..)) henc]
    exact ⟨_, _, _, rfl⟩
  | fin _ =>
    rw [sealsIn_fin] at hroom
    by_cases hf : s.fin = true
    · exact ⟨_, _, _, exec_fin_of_finalized hf⟩
    · exact ⟨_, _, _, exec_fin_of_room (Bool.eq_false_iff.mpr hf) hroom⟩

end

/-- A command that raises an error answers with its code. -/
theorem status_of_next_raise {c : Command} {s t : State} {r : Response} {e : Status} (h : runCommand c s = .next t)
    (ht : t.replies = s.replies ++ [.response r]) (he : runCommand c s = .next (raise e s)) : r.status = e := by
  obtain rfl := Host.Outcome.next.inj (h.symm.trans he)
  rw [response_of_raise ht]

/-- The status of a command is the first error whose cause is there: the causes are taken in the order of priority. -/
theorem firstError_status {c : Command} {s t : State} {r : Response} (hs : StateInv s) (h : runCommand c s = .next t)
    (ht : t.replies = s.replies ++ [.response r]) : FirstError c s r.status := by
  by_cases hill : Cause c s .errIllegal
  · rw [status_of_next_raise h ht (runCommand_of_illegalWord hill s)]
    exact .inr ⟨[], _, rfl, hill, by simp⟩
  obtain ⟨i, hi⟩ := decode_of_legalWord hill
  have hd := decoded_of_ok hi
  have hrun := runCommand_of_ok hi s
  by_cases hstate : Cause c s .errState
  · obtain ⟨hwrite, hf⟩ := (cause_errState_iff hi s).mp hstate
    rw [status_of_next_raise h ht (hrun.trans ((exec_eq_errState_iff hwrite s).mpr hf))]
    exact .inr ⟨[.errIllegal], _, rfl, hstate, by simp [hill]⟩
  have hopen : i.isWrite = true → s.fin = false := by simpa [cause_errState_iff hi] using hstate
  by_cases hwidth : Cause c s .errWidth
  · obtain ⟨n, hn, hw⟩ := (cause_errWidth_iff hi s).mp hwidth
    rw [status_of_next_raise h ht (hrun.trans (exec_of_tooWide hd hopen hn hw))]
    exact .inr ⟨[.errIllegal, .errState], _, rfl, hwidth, by simp [hill, hstate]⟩
  have hw : ∀ n, i.width = some n → n ≤ s.params.w := by simpa [cause_errWidth_iff hi] using hwidth
  by_cases hvalue : Cause c s .errValue
  · have hv := (cause_errValue_iff hi s).mp hvalue
    rw [status_of_next_raise h ht (hrun.trans (exec_of_badValue hd hopen hv))]
    exact .inr ⟨[.errIllegal, .errState, .errWidth], _, rfl, hvalue, by simp [hill, hstate, hwidth]⟩
  have hv := mt (cause_errValue_iff hi s).mpr hvalue
  by_cases hrange : Cause c s .errRange
  · have hr := (cause_errRange_iff hi s).mp hrange
    rw [status_of_next_raise h ht (hrun.trans (exec_of_outOfRange hd hopen hw hr))]
    exact .inr ⟨[.errIllegal, .errState, .errWidth, .errValue], _, rfl, hrange, by simp [hill, hstate, hwidth, hvalue]⟩
  have hr := mt (cause_errRange_iff hi s).mpr hrange
  by_cases hfull : Cause c s .errFull
  · have hroom := (cause_errFull_iff hi s).mp hfull
    rw [status_of_next_raise h ht (hrun.trans (exec_of_noRoom hd hs hopen hw hv hr hroom))]
    exact .inr ⟨[.errIllegal, .errState, .errWidth, .errValue, .errRange], _, rfl, hfull,
      by simp [hill, hstate, hwidth, hvalue, hrange]⟩
  have hroom := not_not.mp (mt (cause_errFull_iff hi s).mpr hfull)
  obtain ⟨tr, n, u, hexec⟩ := exec_of_noError hd hs hopen hw hv hr hroom
  obtain rfl := Host.Outcome.next.inj (h.symm.trans (hrun.trans hexec))
  exact .inl ⟨status_of_respond ht, by simp [errorsByPriority, hill, hstate, hwidth, hvalue, hrange, hfull]⟩

/-- What the host has still to issue is no part of a cause. -/
theorem cause_issued (c : Command) (rest : List Interaction) (s : State) (e : Status) :
    Cause c (issued rest s) e ↔ Cause c s e := by
  cases e <;> rfl

theorem firstError_issued (c : Command) (rest : List Interaction) (s : State) (e : Status) :
    FirstError c (issued rest s) e ↔ FirstError c s e := by
  simp only [FirstError, cause_issued]

/- TRUNC (60_exceptions.md R229) -/

theorem trunc_of_respond {tr : Bool} {n : Nat} {s : State} {q : List Reply} {r : Response}
    (h : (respond tr n s).replies = q ++ [.response r]) : r.trunc = tr :=
  congrArg Response.trunc (response_of_respond h)

theorem raise_not_truncated {r : Response} (hr : r.trunc = true) (e : Status) (s : State) (q : List Reply) :
    (raise e s).replies ≠ q ++ [.response r] :=
  fun h => by simp [response_of_raise h] at hr

/-- The encoder truncates only at b ≥ 1, in the representations that wrap, a value outside the range (41_signed_encoder.md
R161 to R167). -/
theorem encodeSigned_truncated {rep : Rep} {v bias : Int} {b p : Nat} (h : encodeSigned v b rep bias = .pattern p true) :
    1 ≤ b ∧ ¬ (rep = .sm ∨ rep = .oc) ∧ ¬ Representable rep v b bias := by
  obtain ⟨hno, hto⟩ := encodesTo_of_encodeSigned h
  have hb : 1 ≤ b := Nat.pos_of_ne_zero fun h0 => nomatch hto.2.1 h0
  have hv : ¬ Representable rep v b bias := fun hv => nomatch (hto.trunc_iff hb hno).mpr hv
  exact ⟨hb, fun hrep => hno ((refuses_iff hb rep v bias).mpr ⟨hrep, hv⟩), hv⟩

section
variable {rep : Rep} {b : BitVec 7} {d k : Word} {s : State} {q : List Reply} {r : Response}

/-- TRUNC of a WSIG is the encoder's (41_signed_encoder.md R170). -/
theorem writeSigned_truncated (h : (writeSigned rep b d k s).replies = q ++ [.response r]) (hr : r.trunc = true) :
    ∃ p, encodeSigned (sextW s.params.w d) b.toNat rep (sextW s.params.w k) = .pattern p true := by
  unfold writeSigned at h
  simp only at h
  split at h
  · exact absurd h (raise_not_truncated hr _ _ _)
  · split at h
    · exact absurd h (raise_not_truncated hr _ _ _)
    · split at h
      · exact absurd h (raise_not_truncated hr _ _ _)
      · next p tr henc =>
        split at h
        · exact absurd h (raise_not_truncated hr _ _ _)
        · obtain rfl := (trunc_of_respond h).symm.trans hr
          exact ⟨p, henc⟩

/-- TRUNC of an ENC is the encoder's (41_signed_encoder.md R175). -/
theorem encodeOnly_truncated (h : (encodeOnly rep b d k s).replies = q ++ [.response r]) (hr : r.trunc = true) :
    ∃ p, encodeSigned (sextW s.params.w d) b.toNat rep (sextW s.params.w k) = .pattern p true := by
  unfold encodeOnly at h
  split at h
  · exact absurd h (raise_not_truncated hr _ _ _)
  · split at h
    · exact absurd h (raise_not_truncated hr _ _ _)
    · next p tr henc =>
      obtain rfl := (trunc_of_respond h).symm.trans hr
      exact ⟨p, henc⟩

end

theorem exec_wuns_truncated {b : BitVec 7} {d : Word} {s t : State} {r : Response} (h : exec (.wuns b d) s = .next t)
    (ht : t.replies = s.replies ++ [.response r]) (hr : r.trunc = true) : 2 ^ b.toNat ≤ zextW s.params.w d := by
  simp only [exec, execWuns] at h
  split_ifs at h with hf hw hroom
  · cases h
    exact absurd ht (raise_not_truncated hr _ _ _)
  · cases h
    exact absurd ht (raise_not_truncated hr _ _ _)
  · cases h
    exact absurd ht (raise_not_truncated hr _ _ _)
  · cases h
    exact of_decide_eq_true ((trunc_of_respond ht).symm.trans hr)

/-- FIN ends in an error, or answers without TRUNC (40_accumulator.md R129, R130). -/
theorem exec_fin_trunc {s t : State} {r : Response} (h : exec .fin s = .next t)
    (ht : t.replies = s.replies ++ [.response r]) : r.trunc = false := by
  by_cases hf : s.fin = true
  · rw [exec_fin_of_finalized hf] at h
    cases h
    exact trunc_of_respond ht
  · by_cases hroom : HasRoom (if s.pcnt = 0 then 0 else 1) s
    · rw [exec_fin_of_room (Bool.eq_false_iff.mpr hf) hroom] at h
      cases h
      exact trunc_of_respond ht
    · rw [exec_fin_of_noSealRoom (Bool.eq_false_iff.mpr hf) hroom] at h
      cases h
      exact congrArg Response.trunc (response_of_raise ht)

/-- A truncating encoding of a WSIG or ENC command is one of TC, BI or NB, in the words of R229. -/
theorem tagged_truncated {rep : Rep} {b : BitVec 7} {d k : Word} {i : Instr} {w p : Nat}
    (hi : i = wsigOf rep b d k ∨ i = encOf rep b d k)
    (h : encodeSigned (sextW w d) b.toNat rep (sextW w k) = .pattern p true) :
    (∃ b d, (i = .wsigTc b d ∨ i = .encTc b d) ∧ 1 ≤ b.toNat ∧ ¬ Representable .tc (sextW w d) b.toNat 0) ∨
    (∃ b d k, (i = .wsigBi b d k ∨ i = .encBi b d k) ∧ 1 ≤ b.toNat ∧
      ¬ Representable .bi (sextW w d) b.toNat (sextW w k)) ∨
    (∃ b d, (i = .wsigNb b d ∨ i = .encNb b d) ∧ 1 ≤ b.toNat ∧ ¬ Representable .nb (sextW w d) b.toNat 0) := by
  obtain ⟨hb, hrep, hv⟩ := encodeSigned_truncated h
  cases rep with
  | sm => exact absurd (.inl rfl) hrep
  | oc => exact absurd (.inr rfl) hrep
  | tc => exact .inl ⟨b, d, hi, hb, hv⟩
  | bi => exact .inr (.inl ⟨b, d, k, hi, hb, hv⟩)
  | nb => exact .inr (.inr ⟨b, d, hi, hb, hv⟩)

end Sys2Proof.Machine

namespace Sys2Proof.Proofs

open Sys2Proof.Machine

/-- Settles O22: the causes are checked in the order of priority, and an error is `raise`, which adds its response alone. -/
theorem theFirstErrorInPriorityIsReported : Obligations.TheFirstErrorInPriorityIsReported := by
  intro s c rest hs hp
  obtain ⟨t, r, hrun, _, _, ht⟩ := runCommand_frame c (issued rest s)
  refine ⟨t, r, (step_command hp).trans hrun, ht, ?_, fun hr => ?_⟩
  · exact (firstError_issued c rest s _).mp (firstError_status (hs.issued rest) hrun ht)
  · obtain rfl := runCommand_eq_raise hrun ht hr
    rw [response_of_raise ht]
    rfl

/-- Settles O24: an error has no TRUNC, WBIT, ABYTE and FIN answer none, WUNS compares its value with 2^b, and the tagged
commands answer the encoder's. -/
theorem truncComesOnlyFromATruncation : Obligations.TruncComesOnlyFromATruncation := by
  intro s t c rest r hp hs ht hr
  rw [step_command hp] at hs
  have hok : r.status = .ok := by
    by_contra hne
    obtain rfl := runCommand_eq_raise hs ht hne
    exact raise_not_truncated hr _ _ _ ht
  cases hi : decode c with
  | error e =>
    rw [runCommand_of_error hi] at hs
    cases hs
    exact absurd ht (raise_not_truncated hr _ _ _)
  | ok i =>
    rw [runCommand_of_ok hi] at hs
    refine ⟨hok, i, rfl, ?_⟩
    cases decoded_of_ok hi with
    | wbit _ => simp [(response_of_wbit_abyte ⟨_, .inl rfl⟩ hs ht).1] at hr
    | abyte _ => simp [(response_of_wbit_abyte ⟨_, .inr rfl⟩ hs ht).1] at hr
    | fin _ => simp [exec_fin_trunc hs ht] at hr
    | wuns b _ => exact .inl ⟨b, c.data, rfl, exec_wuns_truncated (s := issued rest s) hs ht hr⟩
    | wsig rep b _ =>
      rw [exec_wsigOf] at hs
      cases hs
      obtain ⟨p, henc⟩ := writeSigned_truncated ht hr
      exact .inr (tagged_truncated (.inl rfl) henc)
    | enc rep b _ =>
      rw [exec_encOf] at hs
      cases hs
      obtain ⟨p, henc⟩ := encodeOnly_truncated ht hr
      exact .inr (tagged_truncated (.inr rfl) henc)

/-- Settles O3: with nothing to issue the step is the idle step. -/
theorem withoutInteractionTheStateIsHeld : Obligations.WithoutInteractionTheStateIsHeld :=
  fun _ => step_idle

end Sys2Proof.Proofs
end

section
/-! Proofs of the reset family (70_reset_and_hazards.md): RESET (R250), and the output of a complete run (R261). -/

namespace Sys2Proof.Machine

/- A bit stream closed to whole bytes (40_accumulator.md R129) -/

/-- The bits, then 0 bits up to the next whole byte. -/
def zeroPad (bits : List Bool) : List Bool := bits ++ List.replicate ((8 - bits.length % 8) % 8) false

theorem zeroPad_length_mod (bits : List Bool) : (zeroPad bits).length % 8 = 0 := by
  simp only [zeroPad, List.length_append, List.length_replicate]
  omega

theorem zeroPad_of_whole {bits : List Bool} (h : bits.length % 8 = 0) : zeroPad bits = bits := by
  simp [zeroPad, h]

theorem stream_length_mod {s : State} (hd : s.out.map Prod.fst = List.range s.outLen) :
    s.stream.length % 8 = s.pcnt.toNat := by
  have hk := s.pcnt.isLt
  rw [stream_length hd]
  omega

/-- The stream of a finalized writer is whole bytes. -/
theorem StateInv.zeroPad_stream {s : State} (h : StateInv s) (hf : s.fin = true) : zeroPad s.stream = s.stream := by
  obtain ⟨hk, _⟩ := h.finalized hf
  refine zeroPad_of_whole ?_
  rw [stream_length_mod h.dense, hk]
  rfl

/-- Closing an open writer pads its stream. -/
theorem finalize_stream_eq_zeroPad {s : State} (hs : StateInv s) : (finalize s).stream = zeroPad s.stream := by
  have hk := s.pcnt.isLt
  rw [finalize_stream hs, zeroPad, stream_length_mod hs.dense]

/-- The output bytes of an aligned writer, from bit 7 down, are its stream. -/
theorem output_bits {s : State} (hk : s.pcnt = 0) : (s.output.flatMap fun x => msbBits x.toNat 8) = s.stream := by
  simp [State.output, State.stream, List.flatMap_map, hk]

/- What interactions other than RESET do to the stream -/

/-- From s to t the bits were appended to the stream, and the stream was padded where the writer was closed; a finalized writer
took no bit and stayed finalized. -/
structure Appended (s t : State) (bits : List Bool) : Prop where
  opened : t.fin = false → t.stream = s.stream ++ bits
  closed : t.fin = true → t.stream = zeroPad (s.stream ++ bits)
  frozen : s.fin = true → bits = [] ∧ t.fin = true

theorem StateInv.appended_nil {s t : State} (h : StateInv s) (ht : t.arch = s.arch) : Appended s t [] := by
  obtain ⟨hout, _, hpb, hk, hf⟩ := State.arch_eq_iff.mp ht
  have hstream : t.stream = s.stream := by simp only [State.stream, hout, hpb, hk]
  refine ⟨fun _ => ?_, fun htf => ?_, fun hsf => ⟨rfl, hf.trans hsf⟩⟩
  · rw [hstream, List.append_nil]
  · rw [hstream, List.append_nil, h.zeroPad_stream (hf ▸ htf)]

/-- What the host has still to issue is no part of the stream. -/
theorem Appended.of_issued {s t : State} {rest : List Interaction} {bits : List Bool} (h : Appended (issued rest s) t bits) :
    Appended s t bits := ⟨h.opened, h.closed, h.frozen⟩

/-- The padding at a FIN is the last thing appended: nothing follows it. -/
theorem Appended.trans {s u t : State} {a b : List Bool} (h : Appended s u a) (k : Appended u t b) :
    Appended s t (a ++ b) := by
  cases hu : u.fin with
  | false =>
    have hstream := h.opened hu
    refine ⟨fun ht => ?_, fun ht => ?_, fun hs => ?_⟩
    · rw [k.opened ht, hstream, List.append_assoc]
    · rw [k.closed ht, hstream, List.append_assoc]
    · simp [(h.frozen hs).2] at hu
  | true =>
    obtain ⟨rfl, ht⟩ := k.frozen hu
    have hstream : t.stream = zeroPad (s.stream ++ a) := by
      rw [k.closed ht, List.append_nil, h.closed hu, zeroPad_of_whole (zeroPad_length_mod _)]
    rw [List.append_nil]
    exact ⟨fun hopen => by simp [ht] at hopen, fun _ => hstream, fun hs => ⟨(h.frozen hs).1, ht⟩⟩

/-- An open writer that placed bits and answered. -/
theorem Placed.appended {s t : State} {bits : List Bool} (h : Placed s t bits) (hf : s.fin = false) (tr : Bool) (n : Nat) :
    Appended s (respond tr n t) bits where
  opened _ := h.stream
  closed ht := by simp [h.fin, hf] at ht
  frozen hs := by simp [hf] at hs

/-- An open writer that was closed and answered. -/
theorem finalize_appended {s : State} (h : StateInv s) (hf : s.fin = false) (tr : Bool) (n : Nat) :
    Appended s (respond tr n (finalize s)) [] where
  opened ht := by simp at ht
  closed _ := (finalize_stream_eq_zeroPad h).trans (congrArg zeroPad (List.append_nil _).symm)
  frozen hs := by simp [hf] at hs

/- The bits of a command and its response (20_memory.md R68) -/

theorem bitsPlacedBy_of_error {r : Response} (hr : r.status ≠ .ok) (w : Nat) (c : Command) : bitsPlacedBy w c r = [] := by
  unfold bitsPlacedBy
  split
  · exact absurd ‹_› hr
  · rfl

section
variable {c : Command} {r : Response} (hr : r.status = .ok) (w : Nat)
include hr

theorem bitsPlacedBy_wsigOf {rep : Rep} {b : BitVec 7} {d k : Word} (hd : decode c = .ok (wsigOf rep b d k)) :
    bitsPlacedBy w c r = msbBits r.result.toNat b.toNat := by
  cases rep <;> simp [bitsPlacedBy, hr, hd, wsigOf]

theorem bitsPlacedBy_encOf {rep : Rep} {b : BitVec 7} {d k : Word} (hd : decode c = .ok (encOf rep b d k)) :
    bitsPlacedBy w c r = [] := by
  cases rep <;> simp [bitsPlacedBy, hr, hd, encOf]

end

/-- OK is the first error only where no error has its cause (60_exceptions.md R228). -/
theorem FirstError.no_cause {c : Command} {s : State} (h : FirstError c s .ok) {e : Status} (he : e ∈ errorsByPriority) :
    ¬ Cause c s e := by
  rcases h with ⟨_, hno⟩ | ⟨_, _, _, hcause, _⟩
  · exact hno e he
  · exact hcause.elim

/-- The pattern of a WSIG, read from RESULT (30_encoding.md R97). -/
theorem onBus_pattern_toNat {w b p : Nat} (hp : p < 2 ^ b) (hb : b ≤ w) (hw : w ≤ 64) : (onBus w p).toNat = p := by
  have hlt : p < 2 ^ 64 := hp.trans_le (Nat.pow_le_pow_right (by decide) (hb.trans hw))
  rw [onBus_pattern hp hb, BitVec.toNat_ofNat, Nat.mod_eq_of_lt hlt]

/-- A WSIG without a cause of an error appends the pattern that its RESULT answers (41_signed_encoder.md R170). -/
theorem writeSigned_appended {c : Command} {rep : Rep} {b : BitVec 7} {s : State} {r : Response} (hs : StateInv s)
    (hd : decode c = .ok (wsigOf rep b c.data c.bias)) (hf : s.fin = false) (hw : b.toNat ≤ s.params.w)
    (hno : ¬ Refuses rep (sextW s.params.w c.data) b.toNat) (hroom : HasRoom (sealCount b.toNat s) s)
    (ht : (writeSigned rep b c.data c.bias s).replies = s.replies ++ [.response r]) (hr : r.status = .ok) :
    Appended s (writeSigned rep b c.data c.bias s) (bitsPlacedBy s.params.w c r) := by
  obtain ⟨p, tr, henc, hp, _⟩ := (encodeSigned_spec _ _ rep (sextW s.params.w c.bias)).2 hno
  rw [writeSigned_of_room hf hw henc hroom] at ht ⊢
  have hresult : r.result = onBus s.params.w p := by
    obtain ⟨hparams, _⟩ := putBits_frame p b.toNat s
    rw [← hparams]
    exact congrArg Response.result (response_of_respond ht)
  rw [bitsPlacedBy_wsigOf hr _ hd, hresult, onBus_pattern_toNat hp hw hs.legal.2]
  exact (putBits_placed hs.dense hs.lowBits p b.toNat).appended hf _ _

/-- An accepted command that answers OK appends its bits. -/
theorem exec_appended {c : Command} {i : Instr} {s t : State} {r : Response} (hs : StateInv s) (hd : decode c = .ok i)
    (h : exec i s = .next t) (ht : t.replies = s.replies ++ [.response r]) (hr : r.status = .ok) :
    Appended s t (bitsPlacedBy s.params.w c r) := by
  have hfirst : FirstError c s .ok := hr ▸ firstError_status hs ((runCommand_of_ok hd s).trans h) ht
  have hopen : i.isWrite = true → s.fin = false := by
    simpa [cause_errState_iff hd] using hfirst.no_cause (e := .errState) (by decide)
  have hw : ∀ n, i.width = some n → n ≤ s.params.w := by
    simpa [cause_errWidth_iff hd] using hfirst.no_cause (e := .errWidth) (by decide)
  have hv := mt (cause_errValue_iff hd s).mpr (hfirst.no_cause (by decide))
  have hrange := mt (cause_errRange_iff hd s).mpr (hfirst.no_cause (by decide))
  have hroom := not_not.mp (mt (cause_errFull_iff hd s).mpr (hfirst.no_cause (by decide)))
  have hplaced := putBits_placed hs.dense hs.lowBits
  cases decoded_of_ok hd with
  | wbit _ =>
    have hbits : bitsPlacedBy s.params.w c r = msbBits (zextW s.params.w c.data) 1 := by simp [bitsPlacedBy, hr, hd]
    obtain rfl := Host.Outcome.next.inj (h.symm.trans (exec_wbit_of_room (hopen rfl) (not_lt.mp hv) hroom))
    exact hbits ▸ (hplaced _ 1).appended (hopen rfl) _ _
  | abyte _ =>
    have hbits : bitsPlacedBy s.params.w c r = msbBits (zextW s.params.w c.data) 8 := by simp [bitsPlacedBy, hr, hd]
    obtain rfl := Host.Outcome.next.inj (h.symm.trans (exec_abyte_of_room hs (hopen rfl) (not_lt.mp hv) hroom))
    exact hbits ▸ (hplaced _ 8).appended (hopen rfl) _ _
  | wuns b _ =>
    have hbits : bitsPlacedBy s.params.w c r = msbBits (zextW s.params.w c.data % 2 ^ b.toNat) b.toNat := by
      simp [bitsPlacedBy, hr, hd, msbBits_mod]
    obtain rfl := Host.Outcome.next.inj (h.symm.trans (exec_wuns_of_room rfl _ (hopen rfl) (hw _ rfl) hroom))
    exact hbits ▸ (hplaced _ b.toNat).appended (hopen rfl) _ _
  | wsig rep b _ =>
    rw [wsigOf_outOfRange] at hrange
    rw [wsigOf_sealsIn] at hroom
    rw [exec_wsigOf] at h
    obtain rfl := Host.Outcome.next.inj h
    exact writeSigned_appended hs hd (hopen (wsigOf_isWrite ..)) (hw _ (wsigOf_width ..)) hrange hroom ht hr
  | enc rep b _ =>
    rw [encOf_outOfRange] at hrange
    obtain ⟨p, tr, henc, _⟩ := (encodeSigned_spec _ _ rep (sextW s.params.w c.bias)).2 hrange
    rw [exec_encOf, encodeOnly_of_pattern (hw _ (encOf_width ..)) henc] at h
    obtain rfl := Host.Outcome.next.inj h
    rw [bitsPlacedBy_encOf hr _ hd]
    exact hs.appended_nil rfl
  | fin _ =>
    have hbits : bitsPlacedBy s.params.w c r = [] := by simp [bitsPlacedBy, hr, hd]
    rw [hbits]
    rw [sealsIn_fin] at hroom
    cases hf : s.fin with
    | true =>
      obtain rfl := Host.Outcome.next.inj (h.symm.trans (exec_fin_of_finalized hf))
      exact hs.appended_nil rfl
    | false =>
      obtain rfl := Host.Outcome.next.inj (h.symm.trans (exec_fin_of_room hf hroom))
      exact finalize_appended hs hf _ _

/-- Every command appends the bits it placed: none with an error. -/
theorem runCommand_appended {c : Command} {s t : State} {r : Response} (hs : StateInv s) (h : runCommand c s = .next t)
    (ht : t.replies = s.replies ++ [.response r]) : Appended s t (bitsPlacedBy s.params.w c r) := by
  by_cases hr : r.status = .ok
  · cases hd : decode c with
    | ok i => exact exec_appended hs hd ((runCommand_of_ok hd s).symm.trans h) ht hr
    | error e =>
      obtain rfl := Host.Outcome.next.inj (h.symm.trans (runCommand_of_error hd s))
      simp [response_of_raise ht] at hr
  · obtain rfl := runCommand_eq_raise h ht hr
    rw [bitsPlacedBy_of_error hr]
    exact hs.appended_nil rfl

/- A run without RESET, interaction by interaction -/

theorem commandsOf_append (q q' : List Interaction) : commandsOf (q ++ q') = commandsOf q ++ commandsOf q' :=
  List.filterMap_append

theorem responsesOf_append (rs rs' : List Reply) : responsesOf (rs ++ rs') = responsesOf rs ++ responsesOf rs' :=
  List.filterMap_append

/-- The commands of a run, each with its response. -/
def answers (q : List Interaction) (rs : List Reply) : List (Command × Response) :=
  (commandsOf q).zip (responsesOf rs)

theorem bitsPlaced_eq (w : Nat) (q : List Interaction) (rs : List Reply) :
    bitsPlaced w q rs = (answers q rs).flatMap fun x => bitsPlacedBy w x.1 x.2 := rfl

theorem bitsPlaced_command (w : Nat) (c : Command) (r : Response) :
    bitsPlaced w [.command c] [.response r] = bitsPlacedBy w c r := List.append_nil _

/-- From s to t the host issued the interactions q and got back the replies rs: each command has its response, the bits placed
were appended, and a FIN that responded OK left the writer finalized. -/
structure Served (q : List Interaction) (rs : List Reply) (s t : State) : Prop where
  replies   : t.replies = s.replies ++ rs
  params    : t.params = s.params
  answered  : (commandsOf q).length = (responsesOf rs).length
  appended  : Appended s t (bitsPlaced s.params.w q rs)
  finalized : ∀ c r, (c, r) ∈ answers q rs → decode c = .ok .fin → r.status = .ok → t.fin = true

theorem StateInv.served_nil {s : State} (h : StateInv s) : Served [] [] s s :=
  ⟨(List.append_nil _).symm, rfl, rfl, h.appended_nil rfl, nofun⟩

theorem Served.trans {q q' : List Interaction} {rs rs' : List Reply} {s u t : State} (h : Served q rs s u)
    (k : Served q' rs' u t) : Served (q ++ q') (rs ++ rs') s t := by
  have hanswers : answers (q ++ q') (rs ++ rs') = answers q rs ++ answers q' rs' := by
    rw [answers, commandsOf_append, responsesOf_append, List.zip_append h.answered, answers, answers]
  refine ⟨?_, k.params.trans h.params, ?_, ?_, fun c r hmem hc hr => ?_⟩
  · rw [k.replies, h.replies, List.append_assoc]
  · rw [commandsOf_append, responsesOf_append, List.length_append, List.length_append, h.answered, k.answered]
  · rw [bitsPlaced_eq, hanswers, List.flatMap_append]
    exact h.appended.trans (h.params ▸ k.appended)
  · rw [hanswers, List.mem_append] at hmem
    rcases hmem with hmem | hmem
    · exact (k.appended.frozen (h.finalized c r hmem hc hr)).2
    · exact k.finalized c r hmem hc hr

/-- A port answers and leaves the stream. -/
theorem StateInv.served_port {s : State} (h : StateInv s) {x : Interaction} {y : Reply} (hx : commandsOf [x] = [])
    (hy : responsesOf [y] = []) (rest : List Interaction) : Served [x] [y] s (Machine.reply y (Machine.issued rest s)) := by
  have hanswers : answers [x] [y] = [] := by rw [answers, hx, hy, List.zip_nil_left]
  refine ⟨rfl, rfl, by rw [hx, hy]; rfl, ?_, ?_⟩
  · rw [bitsPlaced_eq, hanswers]
    exact h.appended_nil rfl
  · rw [hanswers]
    exact nofun

theorem runCommand_served {c : Command} {rest : List Interaction} {s t : State} (hs : StateInv s)
    (h : runCommand c (issued rest s) = .next t) : ∃ r, Served [.command c] [.response r] s t := by
  obtain ⟨u, r, hu, _, hparams, hreplies⟩ := runCommand_frame c (issued rest s)
  obtain rfl := Host.Outcome.next.inj (hu.symm.trans h)
  have happ := runCommand_appended (hs.issued rest) h hreplies
  refine ⟨r, hreplies, hparams, rfl, ?_, fun c' r' hmem hc hr => ?_⟩
  · rw [bitsPlaced_command]
    exact happ.of_issued
  · obtain ⟨rfl, rfl⟩ : c' = c ∧ r' = r := by simpa [answers, commandsOf, responsesOf] using hmem
    rw [runCommand_of_ok hc] at h
    exact (exec_ends h).finalized_of_ok hreplies hr

/-- An interaction other than RESET gets one reply. -/
theorem step_served {x : Interaction} {rest : List Interaction} {s t : State} (hs : StateInv s) (hp : s.pending = x :: rest)
    (hx : x ≠ .reset) (h : step s = .next t) : ∃ y, Served [x] [y] s t := by
  cases x with
  | command c =>
    rw [step_command hp] at h
    obtain ⟨r, hr⟩ := runCommand_served hs h
    exact ⟨_, hr⟩
  | readByte a =>
    obtain rfl := Host.Outcome.next.inj (h.symm.trans (step_readByte hp))
    exact ⟨_, hs.served_port rfl rfl rest⟩
  | readStatus =>
    obtain rfl := Host.Outcome.next.inj (h.symm.trans (step_readStatus hp))
    exact ⟨_, hs.served_port rfl rfl rest⟩
  | readOutLen =>
    obtain rfl := Host.Outcome.next.inj (h.symm.trans (step_readOutLen hp))
    exact ⟨_, hs.served_port rfl rfl rest⟩
  | reset => exact absurd rfl hx

theorem run_served {q : List Interaction} {s t : State} (hs : StateInv s) (hp : s.pending = q) (hno : ∀ x ∈ q, x ≠ .reset)
    (h : Host.Core.run Sys2Proof.core q.length s = .next t) : ∃ rs, Served q rs s t := by
  induction q generalizing s with
  | nil =>
    obtain rfl := Host.Outcome.next.inj h
    exact ⟨[], hs.served_nil⟩
  | cons x q ih =>
    obtain ⟨u, hu, hrun⟩ := run_succ h
    have hst := step_cases hu
    obtain ⟨y, hy⟩ := step_served hs hp (hno x List.mem_cons_self) hu
    obtain ⟨rs, hrs⟩ := ih (hst.stateInv hs) (by rw [hst.pending_eq, hp, List.tail_cons])
      (fun z hz => hno z (List.mem_cons_of_mem x hz)) hrun
    exact ⟨y :: rs, hy.trans hrs⟩

/-- The last command of a run is answered by the last response. -/
theorem Served.last_answer {q : List Interaction} {rs : List Reply} {s t : State} (h : Served q rs s t) {c : Command}
    {r : Response} (hc : (commandsOf q).getLast? = some c) (hr : (responsesOf rs).getLast? = some r) :
    (c, r) ∈ answers q rs := by
  rw [List.getLast?_eq_getElem?] at hc hr
  exact List.mem_of_getElem? (List.getElem?_zip_eq_some.mpr ⟨hc, h.answered ▸ hr⟩)

end Sys2Proof.Machine

namespace Sys2Proof.Proofs

open Sys2Proof.Machine

/-- Settles O21: the interactions of the run append the bits placed to the empty stream, and its FIN leaves it closed to whole
bytes. -/
theorem completeRunOutputsEveryBitPlaced : Obligations.CompleteRunOutputsEveryBitPlaced := by
  intro p q t hp hno hrun ⟨⟨c, hc, hfin⟩, r, hr, hok⟩
  have hs := stateInv_afterReset hp q
  obtain ⟨rs, hserved⟩ := run_served hs rfl hno hrun
  obtain rfl : t.replies = rs := hserved.replies
  have hf := hserved.finalized c r (hserved.last_answer hc hr) hfin hok
  obtain ⟨ht, _⟩ := run_grows hs (fun x hx => hno x (List.mem_of_mem_take hx)) hrun
  obtain ⟨hk, hpb⟩ := ht.finalized hf
  exact ⟨hf, hk, hpb, (output_bits hk).trans (hserved.appended.closed hf)⟩

/-- Settles O2: the fields of `applyReset`. -/
theorem resetClearsEveryRegisterWithoutResponse : Obligations.ResetClearsEveryRegisterWithoutResponse :=
  fun _ _ hp => step_reset hp

end Sys2Proof.Proofs
end
